-- ==== Sys2Proof/Word.lean ====
section
/-! DEFINITION. The word types of the core: widths as 00_scope.md R8 and 30_encoding.md R63 fix them. -/

namespace Sys2Proof

/-- 4 bits: a register index `x`, `y` or a sprite height `n` (R12 "Nibble", R63). -/
abbrev Nibble := BitVec 4

/-- 8 bits: a general register, a timer, a byte of memory, an immediate `kk` (R8). -/
abbrev Byte := BitVec 8

/-- 12 bits: "a validated 12-bit address/immediate value assembled from three nibbles" (R12, R61). -/
abbrev Datum := BitVec 12

/-- 16 bits: an instruction word, `PC` and `I` (R8, R62). -/
abbrev Word := BitVec 16

/-- One row of the framebuffer: 64 pixels of one bit each, column `c` in bit `c`, 1 = lit (R12, 10_state.md R20, R32). -/
abbrev FrameRow := BitVec 64

/-- The framebuffer: 32 rows by row number (10_state.md R32). -/
abbrev Frame := Vector FrameRow 32

/-- The framebuffer with every pixel unlit. -/
def blankFrame : Frame := Vector.replicate 32 0#64

end Sys2Proof
end

