-- ==== Sys2Proof/Syntax.lean ====
section
/-! DEFINITION. The instructions (one constructor per row of spec/opcode_table.json), and what an assembler reads:
a variant with its operands as plain numbers (30_encoding.md R75). -/

namespace Sys2Proof

/-- "A closed tagged-variant type representing every decoded opcode with its operands already extracted and
range-checked" (00_scope.md R12). An operand has its field's width, so a register index is 0..15 structurally
(10_state.md R21, 30_encoding.md R64). -/
inductive Instr where
  /-- Nop, `0000` (R81) -/
  | nop
  /-- ClearScreen, `00E0` (R82) -/
  | cls
  /-- Return, `00EE`, reserved (R83) -/
  | ret
  /-- Jump(nnn), `1nnn` (R84) -/
  | jp (nnn : Datum)
  /-- Load(x, kk), `6xkk` (R85) -/
  | ldVxKk (x : Nibble) (kk : Byte)
  /-- Add(x, kk), `7xkk` (R86) -/
  | addVxKk (x : Nibble) (kk : Byte)
  /-- SetIndex(nnn), `Annn` (R87) -/
  | ldINnn (nnn : Datum)
  /-- Draw(x, y, n), `Dxyn` (R100) -/
  | drw (x y n : Nibble)
  deriving DecidableEq, Repr

/-- The rows of spec/opcode_table.json by name. -/
inductive Variant where
  | nop | cls | ret | jp | ldVxKk | addVxKk | ldINnn | drw
  deriving DecidableEq, Repr

/-- Which row an instruction belongs to. -/
def Instr.variant : Instr → Variant
  | .nop => .nop
  | .cls => .cls
  | .ret => .ret
  | .jp _ => .jp
  | .ldVxKk _ _ => .ldVxKk
  | .addVxKk _ _ => .addVxKk
  | .ldINnn _ => .ldINnn
  | .drw _ _ _ => .drw

/-- The widths of a row's operands in the order the assembler writes them: the formats FIXED, NNN, XKK and XYN
of R63. -/
def Variant.fieldWidths : Variant → List Nat
  | .nop | .cls | .ret => []
  | .jp | .ldINnn => [12]
  | .ldVxKk | .addVxKk => [4, 8]
  | .drw => [4, 4, 4]

/-- The operands of an instruction as numbers, in the same order. -/
def Instr.operands : Instr → List Nat
  | .nop | .cls | .ret => []
  | .jp nnn => [nnn.toNat]
  | .ldVxKk x kk => [x.toNat, kk.toNat]
  | .addVxKk x kk => [x.toNat, kk.toNat]
  | .ldINnn nnn => [nnn.toNat]
  | .drw x y n => [x.toNat, y.toNat, n.toNat]

/-- One instruction line of assembly (R75): the variant and its operands, as the numbers that were written. Nothing
bounds them yet: that is what WellFormed checks. -/
structure AsmLine where
  variant : Variant
  operands : List Nat
  deriving DecidableEq, Repr

/-- One line of an assembly text (R75). -/
inductive AsmItem where
  /-- an instruction -/
  | line (l : AsmLine)
  /-- `DB b1, b2, ...`: raw bytes at the next addresses -/
  | db (bytes : List Nat)
  /-- `ORG a`: sets the next address -/
  | org (addr : Nat)
  deriving DecidableEq, Repr

end Sys2Proof
end

