-- ==== Sys2Proof/Decode.lean ====
section
/-! DEFINITION. The decoder (30_encoding.md R60 to R74), total on every word and on any bytes, and the encoder, written
from the rows of spec/opcode_table.json. -/

namespace Sys2Proof

/-! ## Fields and byte order -/

/-- R60: `nibbles(b) = (b >> 4, b & 0xF)`. -/
def nibbles (b : Byte) : Nibble × Nibble := (b.extractLsb' 4 4, b.extractLsb' 0 4)

/-- R61: `Datum(a, b, c) = (a << 8) | (b << 4) | c`. -/
def datum (a b c : Nibble) : Datum := a ++ b ++ c

/-- R63: the primary opcode, `w[15:12]`. -/
def opOf (w : Word) : Nibble := w.extractLsb' 12 4

/-- R63: the first register operand, `w[11:8]`. -/
def xOf (w : Word) : Nibble := w.extractLsb' 8 4

/-- R63: the second register operand, `w[7:4]`. -/
def yOf (w : Word) : Nibble := w.extractLsb' 4 4

/-- R63: the 4-bit immediate, `w[3:0]`. -/
def nOf (w : Word) : Nibble := w.extractLsb' 0 4

/-- R63: the 8-bit immediate, `w[7:0]`. -/
def kkOf (w : Word) : Byte := w.extractLsb' 0 8

/-- R63: the address, `Datum(w[11:8], w[7:4], w[3:0])`. -/
def nnnOf (w : Word) : Datum := datum (xOf w) (yOf w) (nOf w)

/-- 20_memory.md R44: the byte at the lower address is bits 15..8. -/
def wordOfBytes (high low : Byte) : Word := high ++ low

/-- The bytes of a word in the order memory holds them (R44). -/
def bytesOfWord (w : Word) : List Byte := [w.extractLsb' 8 8, w.extractLsb' 0 8]

/-! ## The decoder -/

/-- Why no instruction could be read. -/
inductive DecodeReject where
  /-- R70: the word matches no pattern of this revision. One name for "malformed" and "not supported" (R71). -/
  | decodeFailure (word : Word)
  /-- fewer than the two bytes of an instruction (R62); the core never meets it, since a fetch reads two bytes -/
  | truncated
  deriving DecidableEq, Repr

/-- R65: dispatch "driven by the high nibble first, then successively narrower nibble groups". -/
def decodeWord (w : Word) : Except DecodeReject Instr :=
  match (opOf w).toNat with
  | 0x0 =>
    if w = 0x0000#16 then .ok .nop
    else if w = 0x00E0#16 then .ok .cls
    else if w = 0x00EE#16 then .ok .ret
    else .error (.decodeFailure w)
  | 0x1 => .ok (.jp (nnnOf w))
  | 0x6 => .ok (.ldVxKk (xOf w) (kkOf w))
  | 0x7 => .ok (.addVxKk (xOf w) (kkOf w))
  | 0xA => .ok (.ldINnn (nnnOf w))
  | 0xD => .ok (.drw (xOf w) (yOf w) (nOf w))
  | _ => .error (.decodeFailure w)

/-- Decoding any bytes: the first instruction and the bytes after it. A decoder always consumes 2 bytes (R62). -/
def decodeBytes : List Byte → Except DecodeReject (Instr × List Byte)
  | high :: low :: rest =>
    match decodeWord (wordOfBytes high low) with
    | .ok i => .ok (i, rest)
    | .error r => .error r
  | _ => .error .truncated

/-! ## The encoder -/

/-- A row of spec/opcode_table.json: `w` belongs to it when `w & mask = match`. -/
structure Row where
  variant : Variant
  pattern : Word
  mask : Word
  deriving DecidableEq, Repr

/-- spec/opcode_table.json, the columns match and mask. -/
def opcodeTable : List Row :=
  [⟨.nop, 0x0000#16, 0xFFFF#16⟩, ⟨.cls, 0x00E0#16, 0xFFFF#16⟩, ⟨.ret, 0x00EE#16, 0xFFFF#16⟩,
   ⟨.jp, 0x1000#16, 0xF000#16⟩, ⟨.ldVxKk, 0x6000#16, 0xF000#16⟩, ⟨.addVxKk, 0x7000#16, 0xF000#16⟩,
   ⟨.ldINnn, 0xA000#16, 0xF000#16⟩, ⟨.drw, 0xD000#16, 0xF000#16⟩]

/-- A word matches a row. -/
def Row.matchesWord (r : Row) (w : Word) : Bool := w &&& r.mask == r.pattern

/-- The table's encoding column: `0001nnnnnnnnnnnn`, `0110xxxxkkkkkkkk` and so on. -/
def encode : Instr → Word
  | .nop => 0x0000#16
  | .cls => 0x00E0#16
  | .ret => 0x00EE#16
  | .jp nnn => 0x1#4 ++ nnn
  | .ldVxKk x kk => 0x6#4 ++ x ++ kk
  | .addVxKk x kk => 0x7#4 ++ x ++ kk
  | .ldINnn nnn => 0xA#4 ++ nnn
  | .drw x y n => 0xD#4 ++ x ++ y ++ n

/-- The host's reading of a row's word: bit 0 of `w` is bit 0 of the one 16-bit word; the bits above `nbits` are 0.
The bytes go to the decoder as memory holds them, high byte first (R44). -/
def decodeTableWord (nbits w : Nat) : Option Instr :=
  match decodeBytes (bytesOfWord (BitVec.ofNat 16 (w % 2 ^ nbits))) with
  | .ok (i, _) => some i
  | .error _ => none

end Sys2Proof
end

