-- ==== Sys2Proof/Config.lean ====
section
/-! DEFINITION. What an implementation of the core fixes: the sizes of 00_scope.md R8, the OPEN parameters as
opaque constants, and the parameters with a default as plain data that State carries (log 3, log 4). -/

namespace Sys2Proof

/-- `MEM_SIZE`: 4096 bytes, addresses 0..4095 (R8, R40). -/
def Config.memSize : Nat := 4096

/-- `PROGRAM_BASE`: programs start here, and so does `PC` after RESET (R8, R161). -/
def Config.programBase : Nat := 0x200

/-- `MAX_PROGRAM`: what LOAD copies at most, `4096 - 0x200` bytes (R8, R163). -/
def Config.maxProgram : Nat := 3584

/-- `STACK_DEPTH`, an OPEN parameter (R8, D11): no value of it is known to any proof. Log 4. -/
opaque Config.stackDepth : Nat

/-- `SP_WIDTH`, an OPEN parameter (R8, D11): no value of it is known to any proof. Log 4. -/
opaque Config.spWidth : Nat

/-- `TICK_INTERVAL`, an OPEN parameter in a unit the spec does not name (R8, R129, D14). Log 4. -/
opaque Config.tickInterval : Nat

/-- `FB_OUT_POLICY` (45_step_and_interface.md R125, D9). -/
inductive FbOutPolicy where
  /-- the STEP result carries the framebuffer exactly after ClearScreen or Draw ran to completion -/
  | onDisplayInstruction
  /-- the STEP result carries the framebuffer exactly when a pixel changed -/
  | onChange
  deriving DecidableEq, Repr

/-- `DRAW_N0_POLICY` (41_draw.md R106, D7). -/
inductive DrawN0Policy where
  /-- Draw with n = 0 raises UNIMPLEMENTED -/
  | fault
  /-- Draw with n = 0 is the zero-row loop: `VF <- 0` and nothing else -/
  | empty
  deriving DecidableEq, Repr

/-- The parameters that have a default (R8). They are fixed for a machine; State carries them as data, so that a
claim over all states is a claim over every choice (log 3). -/
structure Params where
  /-- `FB_INIT`: the framebuffer RESET leaves (R32, D10) -/
  fbInit : Frame
  /-- `FB_OUT_POLICY` (R125) -/
  fbOutPolicy : FbOutPolicy
  /-- `DRAW_N0_POLICY` (R106) -/
  drawN0Policy : DrawN0Policy
  /-- `DRAW_COORDS_FIRST` (R102, D8) -/
  drawCoordsFirst : Bool
  deriving DecidableEq, Repr

/-- The defaults of R8. -/
def Params.default : Params where
  fbInit := blankFrame
  fbOutPolicy := .onDisplayInstruction
  drawN0Policy := .fault
  drawCoordsFirst := true

end Sys2Proof
end

