-- ==== Sys2Proof/Machine/State.lean ====
section
/-! DEFINITION. The machine's state: the record S of 10_state.md R20, the configuration, and the two ports of the STEP
transaction. Plain data throughout. -/

namespace Sys2Proof.Machine

open Sys2Proof

/-- The fault codes of 60_exceptions.md R141. -/
inductive FaultCode where
  /-- 0, no fault -/
  | none
  /-- 1, the word matches no pattern of this revision -/
  | decodeFailure
  /-- 2, a decodable but reserved encoding was executed -/
  | unimplemented
  /-- 3, a fetch or a sprite read past 4095 -/
  | memoryBounds
  /-- 4, an internal invariant violated; no rule raises it -/
  | rangeViolation
  deriving DecidableEq, Repr

/-- The fault status register of 60_exceptions.md R146. -/
structure FaultStatus where
  code : FaultCode
  /-- the address of the faulting instruction -/
  pc : Word
  /-- its word, 0 for a fetch fault -/
  word : Word
  /-- the first out-of-range address for MEMORY_BOUNDS, else 0 -/
  addr : Word
  deriving DecidableEq, Repr

/-- What a STEP returned (45_step_and_interface.md R124). The model's own field of State (log 2). -/
inductive StepResult where
  /-- no STEP since RESET -/
  | noStep
  /-- `Ok(fb_out)`; `some F` carries a copy of the framebuffer after the step -/
  | ok (fbOut : Option Frame)
  /-- `Err(fault)` -/
  | err (fault : FaultStatus)
  deriving DecidableEq, Repr

/-- Memory: the bytes that are not 0, by rising address. An unlisted address reads as 0, its value after RESET
(70_reset_and_hazards.md R160). The form is `Memory.wf` in Machine/Ops.lean. -/
abbrev Memory := List Host.Cell

/-- The reserved call stack, in the same form: the entries that are not 0, by rising index. An entry is 16 bits,
DEDUCED from "pop stack into PC" (10_state.md R29, 40_arith_control.md R83); log 5, log 6. -/
abbrev CallStack := List (Nat × Word)

/-- The state record of 10_state.md R20 with the configuration (log 3) and the ports of STEP (log 2, log 7). -/
structure State where
  /-- general registers V0..VF; `VF`, entry 15, is also the collision flag (R21, R22) -/
  v : Vector Byte 16
  /-- index register `I` (R25) -/
  i : Word
  /-- program counter `PC` (R26) -/
  pc : Word
  /-- stack pointer `SP`, reserved (R29) -/
  sp : BitVec Config.spWidth
  /-- call stack, reserved (R29) -/
  stack : CallStack
  /-- delay timer `DT` (R30) -/
  dt : Byte
  /-- sound timer `ST` (R30) -/
  st : Byte
  /-- memory (R33) -/
  mem : Memory
  /-- framebuffer `FB` (R32) -/
  fb : Frame
  /-- fault status register (60_exceptions.md R146) -/
  fault : FaultStatus
  /-- set by the first STEP; closes LOAD (R31) -/
  started : Bool
  /-- the configuration; no transition writes it (log 3) -/
  params : Params
  /-- the 16 key bits of the STEP being made; nothing reads them (R127, log 7) -/
  keys : BitVec 16
  /-- what the last STEP returned (R124, log 2) -/
  result : StepResult
  deriving DecidableEq, Repr

/-- The reasons a step can stop the model with Host's fault. THERE IS NONE: every fault the spec describes (R141) has an
entry the spec describes (R144, R145), so the step takes it and answers a next state whose fault register says which
(log 1). Nothing raises a `Fault`, so the type is safe. -/
inductive Fault where
  deriving DecidableEq, Repr

/-- The reasons a transaction has no transition. -/
inductive Refusal where
  /-- an instruction without a meaning. Raised by no arm of exec: every instruction has one. Safe: it stops. -/
  | notModelled (mnemonic : String)
  /-- LOAD after the first STEP: "refuse" (70_reset_and_hazards.md R163, D15). Raised by `transact`, never by a step.
  Safe: it stops where the spec has no transition. -/
  | loadAfterStart
  deriving DecidableEq, Repr

/-- RESET of a machine with the given configuration (70_reset_and_hazards.md R160). `stack` all 0 (log 5), `keys` 0
(log 7) and `result` (log 2) are DESIGN CHOICES: the spec gives them no value. -/
def State.resetWith (p : Params) : State where
  v := Vector.replicate 16 0#8
  i := 0x0000#16
  pc := 0x0200#16
  sp := 0#Config.spWidth
  stack := []
  dt := 0x00#8
  st := 0x00#8
  mem := []
  fb := p.fbInit
  fault := { code := .none, pc := 0x0000#16, word := 0x0000#16, addr := 0x0000#16 }
  started := false
  params := p
  keys := 0x0000#16
  result := .noStep

/-- The machine right after reset, with the default configuration of 00_scope.md R8. -/
def State.reset : State := State.resetWith Params.default

end Sys2Proof.Machine
end

