-- ==== Sys2Proof/Machine/Ops.lean ====
section
/-! DEFINITION. The named operations over memory, registers, framebuffer and the fault register. -/

namespace Sys2Proof.Machine

open Sys2Proof

/-! ## Lists of (key, value) in one canonical form -/

/-- The value at a key; an unlisted key holds `d`. -/
def sparseRead {α : Type} (d : α) : List (Nat × α) → Nat → α
  | [], _ => d
  | (k, x) :: m, a => if a = k then x else sparseRead d m a

/-- Write a value, keeping the form: keys rising, and no entry equal to `d`. -/
def sparsePut {α : Type} [DecidableEq α] (d : α) : List (Nat × α) → Nat → α → List (Nat × α)
  | [], a, y => if y = d then [] else [(a, y)]
  | (k, x) :: m, a, y =>
    if a < k then (if y = d then (k, x) :: m else (a, y) :: (k, x) :: m)
    else if a = k then (if y = d then m else (a, y) :: m)
    else (k, x) :: sparsePut d m a y

/-- The form: keys strictly rising from `lo`, all below `hi`, and no entry equal to `d`. -/
def sparseWf {α : Type} [DecidableEq α] (d : α) (hi : Nat) : Nat → List (Nat × α) → Bool
  | _, [] => true
  | lo, (k, x) :: m => decide (lo ≤ k) && decide (k < hi) && decide (x ≠ d) && sparseWf d hi (k + 1) m

/-! ## Memory -/

/-- The byte at an address of the array of 20_memory.md R40; reading has no side effect (R46). -/
def Memory.byte (m : Memory) (a : Nat) : Byte := sparseRead 0x00#8 m a

/-- `MemWrite(a, 1, b)` (00_scope.md R10), defined for the loader only; an address outside 0..4095 is no cell. -/
def Memory.write (m : Memory) (a : Nat) (b : Byte) : Memory :=
  if a < Config.memSize then sparsePut 0x00#8 m a b else m

/-- The canonical form of memory. -/
def Memory.wf (m : Memory) : Bool := sparseWf 0x00#8 Config.memSize 0 m

/-- Consecutive bytes from an address on. -/
def Memory.writeBytes : Memory → Nat → List Byte → Memory
  | m, _, [] => m
  | m, a, b :: bs => (m.write a b).writeBytes (a + 1) bs

/-- The first address of `addr .. addr + n - 1` past 4095, in an arithmetic that does not wrap (20_memory.md R42). -/
def firstOutside (addr n : Nat) : Option Nat :=
  ((List.range n).map (addr + ·)).find? (fun a => decide (4095 < a))

/-- `MemRead(addr, 1)` of 20_memory.md R42: the byte, or the out-of-range address that raises MEMORY_BOUNDS. -/
def Memory.read1 (m : Memory) (addr : Nat) : Except Nat Byte :=
  match firstOutside addr 1 with
  | some a => .error a
  | none => .ok (m.byte addr)

/-- `MemRead(addr, 2)` of 20_memory.md R42: big-endian (R44). -/
def Memory.read2 (m : Memory) (addr : Nat) : Except Nat Word :=
  match firstOutside addr 2 with
  | some a => .error a
  | none => .ok (wordOfBytes (m.byte addr) (m.byte (addr + 1)))

/-- The form of the call stack: indexes below STACK_DEPTH (10_state.md R20). -/
def CallStack.wf (c : CallStack) : Bool := sparseWf 0x0000#16 Config.stackDepth 0 c

/-- The entry `stack[k]` (10_state.md R20). -/
def CallStack.entry (c : CallStack) (k : Nat) : Word := sparseRead 0x0000#16 c k

/-! ## Framebuffer -/

/-- `FB[r][c]` (00_scope.md R10). -/
def pixelAt (f : Frame) (r : Fin 32) (c : Fin 64) : Bool := f[r].getLsbD c.val

/-- `FB[r][c] <- b` (00_scope.md R10). -/
def setPixelAt (f : Frame) (r : Fin 32) (c : Fin 64) (b : Bool) : Frame :=
  f.set r.val (if b then f[r] ||| BitVec.twoPow 64 c.val else f[r] &&& ~~~ BitVec.twoPow 64 c.val) r.isLt

/-- The toroidal wrap of a row, `k mod 32` (41_draw.md R101). -/
def wrapRow (k : Nat) : Fin 32 := ⟨k % 32, Nat.mod_lt k (by decide)⟩

/-- The toroidal wrap of a column, `k mod 64` (41_draw.md R101). -/
def wrapCol (k : Nat) : Fin 64 := ⟨k % 64, Nat.mod_lt k (by decide)⟩

/-! ## Registers and the other fields -/

/-- `V[x]` (00_scope.md R10, 10_state.md R21). -/
def State.getV (s : State) (x : Nibble) : Byte := s.v[x.toNat]'x.isLt

/-- `V[x] <- b`; `VF` is `V[15]`, the same 8 bits (10_state.md R22). -/
def State.setV (s : State) (x : Nibble) (b : Byte) : State := { s with v := s.v.set x.toNat b x.isLt }

/-- `I <- a`. -/
def State.setI (s : State) (a : Word) : State := { s with i := a }

/-- `PC <- a`. -/
def State.setPc (s : State) (a : Word) : State := { s with pc := a }

/-- `FB <- f`. -/
def State.setFb (s : State) (f : Frame) : State := { s with fb := f }

/-- The byte at an address (20_memory.md R40). -/
def State.readByte (s : State) (a : Nat) : Byte := s.mem.byte a

/-- `FB[r][c]`. -/
def State.pixel (s : State) (r : Fin 32) (c : Fin 64) : Bool := pixelAt s.fb r c

/-- `pc_i`, the address the instruction being executed was fetched from: on entry to an instruction rule
`PC = pc_i + 2` (00_scope.md R11, 40_arith_control.md R80). DEDUCED, log 9. -/
def State.fetchedFrom (s : State) : Word := s.pc - 2#16

/-! ## Taking a fault -/

/-- FAULT ENTRY, the one operation every fault goes through (60_exceptions.md R144): the fault register is written,
`PC` is `pc_i` again, and since a fault is raised before the instruction changes anything, every other register, byte
and pixel holds what it held when the STEP began (R145). There is no vector, mask or mode to change (R140). -/
def takeFault (code : FaultCode) (pcI word addr : Word) (s : State) : State :=
  { s with pc := pcI, fault := { code := code, pc := pcI, word := word, addr := addr } }

/-- A fault raised inside an instruction rule: its word is the instruction's own (60_exceptions.md R141), which its
encoding gives back, since every word has one meaning (30_encoding.md R74). DEDUCED, log 9. -/
def raiseFault (code : FaultCode) (ins : Instr) (addr : Word) (s : State) : State :=
  takeFault code s.fetchedFrom (encode ins) addr s

-- There is no return from a fault (60_exceptions.md R147): only RESET clears the fault register, and `State.resetWith`
-- in Machine/State.lean is that.

/-- The numbers of 60_exceptions.md R141; 5..7 never occur (R146). -/
def FaultCode.number : FaultCode → BitVec 3
  | .none => 0#3
  | .decodeFailure => 1#3
  | .unimplemented => 2#3
  | .memoryBounds => 3#3
  | .rangeViolation => 4#3

end Sys2Proof.Machine
end

