-- ==== Sys2Proof/Machine/Operands.lean ====
section
/-! DEFINITION. The operand forms of 30_encoding.md R64: registers, immediates, the zero-extended address, and the
two forms only Draw has: the start coordinates and the sprite bytes at `I + i`. -/

namespace Sys2Proof.Machine

open Sys2Proof

/-- `zext_16(nnn)`: a 12-bit address written to `PC` or `I` (R64). -/
def zextDatum (nnn : Datum) : Word := nnn.setWidth 16

/-- `V[x] mod 64` (41_draw.md R101). -/
def startColumn (s : State) (x : Nibble) : Nat := (s.getV x).toNat % 64

/-- `V[y] mod 32` (41_draw.md R101, 90_conflicts.md C1). -/
def startRow (s : State) (y : Nibble) : Nat := (s.getV y).toNat % 32

/-- The number of the sprite's row `i`: the address `I + i`, not reduced modulo 4096 (41_draw.md R103). -/
def spriteAddr (s : State) (i : Nat) : Nat := s.i.toNat + i

/-- The first sprite address past 4095, if there is one: "the whole sprite checked first" (41_draw.md R100, R103). -/
def spriteOutside (s : State) (n : Nibble) : Option Nat := firstOutside s.i.toNat n.toNat

/-- The sprite's row `i`, read once every address is known to be in range (41_draw.md R103). -/
def spriteRow (s : State) (i : Nat) : Byte := s.readByte (spriteAddr s i)

/-- The sprite pixel `j` of a row, most-significant bit leftmost: bit `7 - j` (41_draw.md R104). -/
def spritePixel (row : Byte) (j : Nat) : Bool := row.getLsbD (7 - j)

end Sys2Proof.Machine
end

