-- ==== Sys2Proof/Machine/Arith.lean ====
section
/-! DEFINITION. Load, Add and SetIndex (40_arith_control.md R85, R86, R87). On entry `PC = pc_i + 2` (R80). -/

namespace Sys2Proof.Machine

open Sys2Proof

/-- `trunc_8(zext_9(a) + zext_9(b))`: the 9-bit sum cut to 8 bits; no carry is kept (R86). -/
def addWrap (a b : Byte) : Byte := (a.setWidth 9 + b.setWidth 9).setWidth 8

/-- R85: `V[x] <- kk`. -/
def execLdVxKk (x : Nibble) (kk : Byte) (s : State) : Host.Outcome State Fault Refusal := .next (s.setV x kk)

/-- R86: `V[x] <- (V[x] + kk) mod 256`; `VF` is no flag output. -/
def execAddVxKk (x : Nibble) (kk : Byte) (s : State) : Host.Outcome State Fault Refusal :=
  .next (s.setV x (addWrap (s.getV x) kk))

/-- R87: `I <- zext_16(nnn)`. -/
def execLdINnn (nnn : Datum) (s : State) : Host.Outcome State Fault Refusal := .next (s.setI (zextDatum nnn))

end Sys2Proof.Machine
end

