-- ==== Sys2Proof/Machine/Control.lean ====
section
/-! DEFINITION. Nop, Return and Jump (40_arith_control.md R81, R83, R84). On entry `PC = pc_i + 2` (R80). -/

namespace Sys2Proof.Machine

open Sys2Proof

/-- R81: no state change. -/
def execNop (s : State) : Host.Outcome State Fault Refusal := .next s

/-- R83: `raise Fault(UNIMPLEMENTED, (word = 0x00EE, pc = pc_i))`, a fault entry the spec describes, so a next state. -/
def execRet (s : State) : Host.Outcome State Fault Refusal := .next (raiseFault .unimplemented .ret 0x0000#16 s)

/-- R84: `pc <- zext_16(nnn)`, over the `pc_i + 2` of the fetch. -/
def execJp (nnn : Datum) (s : State) : Host.Outcome State Fault Refusal := .next (s.setPc (zextDatum nnn))

end Sys2Proof.Machine
end

