-- ==== Sys2Proof/Machine/Flags.lean ====
section
/-! DEFINITION. The one flag, the collision flag in `VF` (10_state.md R24): its clear and its rise. -/

namespace Sys2Proof.Machine

open Sys2Proof

/-- `VF`, the register index 15 (10_state.md R22). -/
def flagReg : Nibble := 15#4

/-- `VF <- 0` at the start of a Draw (41_draw.md R102). -/
def clearFlag (s : State) : State := s.setV flagReg 0x00#8

/-- `VF` after one sprite pixel `bit` met the screen pixel `lit`: raised to 1 by an erasure, never lowered
(41_draw.md R102, R105). -/
def raiseOnErase (bit lit : Bool) (vf : Byte) : Byte := if bit && lit then 0x01#8 else vf

end Sys2Proof.Machine
end

