-- ==== Sys2Proof/Machine/Display.lean ====
section
/-! DEFINITION. ClearScreen (40_arith_control.md R82) and Draw, the XOR compositor (41_draw.md R100 to R109). On entry
`PC = pc_i + 2` (R80). -/

namespace Sys2Proof.Machine

open Sys2Proof

/-- R82: every pixel unlit; `VF` unchanged. -/
def execCls (s : State) : Host.Outcome State Fault Refusal := .next (s.setFb blankFrame)

/-- What Draw's loop writes: the framebuffer and `VF`. -/
structure Canvas where
  fb : Frame
  vf : Byte
  deriving DecidableEq, Repr

/-- The body of Draw's inner loop (41_draw.md R100): collision first, then the XOR. -/
def plotPixel (r : Fin 32) (c : Fin 64) (bit : Bool) (cv : Canvas) : Canvas where
  fb := setPixelAt cv.fb r c (pixelAt cv.fb r c ^^ bit)
  vf := raiseOnErase bit (pixelAt cv.fb r c) cv.vf

/-- Draw's loop over `j` in 0 .. 7: one sprite row at screen row `r`, start column `sx` (R104). -/
def plotRow (r : Fin 32) (sx : Nat) (row : Byte) (cv : Canvas) : Canvas :=
  (List.range 8).foldl (fun cv j => plotPixel r (wrapCol (sx + j)) (spritePixel row j) cv) cv

/-- Draw's loop over `i` in 0 .. n-1 (R100). -/
def plotSprite (sx sy : Nat) (rowAt : Nat → Byte) (n : Nat) (cv : Canvas) : Canvas :=
  (List.range n).foldl (fun cv i => plotRow (wrapRow (sy + i)) sx (rowAt i) cv) cv

/-- The start column and row of Draw. With DRAW_COORDS_FIRST they come from the registers as they are, otherwise from
the registers after `VF <- 0`; this matters only for x = 15 or y = 15 (R102, D8). -/
def drawOrigin (x y : Nibble) (s : State) : Nat × Nat :=
  let from' := if s.params.drawCoordsFirst then s else clearFlag s
  (startColumn from' x, startRow from' y)

/-- Draw of a sprite that lies in memory: `VF <- 0`, then the loops (R100). -/
def drawSprite (x y n : Nibble) (s : State) : State :=
  let origin := drawOrigin x y s
  let cv := plotSprite origin.1 origin.2 (spriteRow s) n.toNat { fb := s.fb, vf := (clearFlag s).getV flagReg }
  (s.setFb cv.fb).setV flagReg cv.vf

/-- R100: n = 0 per DRAW_N0_POLICY (R106), before any address is looked at (60_exceptions.md R143); then the whole
sprite's bounds (R103), before any change; then the drawing. -/
def execDrw (x y n : Nibble) (s : State) : Host.Outcome State Fault Refusal :=
  if n = 0#4 then
    match s.params.drawN0Policy with
    | .fault => .next (raiseFault .unimplemented (.drw x y n) 0x0000#16 s)
    | .empty => .next (clearFlag s)
  else
    match spriteOutside s n with
    | some a => .next (raiseFault .memoryBounds (.drw x y n) (BitVec.ofNat 16 a) s)
    | none => .next (drawSprite x y n s)

end Sys2Proof.Machine
end

