-- ==== Sys2Proof/Machine/Driver.lean ====
section
/-! DEFINITION. The pieces of the STEP transaction around the instruction rules (45_step_and_interface.md R120 to R125):
fetch, advance, what the STEP returns, and the transaction itself, which Step.lean calls. -/

namespace Sys2Proof.Machine

open Sys2Proof

/-- `started <- 1`, when a STEP begins (10_state.md R31, R120). -/
def State.markStarted (s : State) : State := { s with started := true }

/-- Fetch: `MemRead(PC, 2)`, the word or the first out-of-range address (R121). -/
def State.fetch (s : State) : Except Nat Word := s.mem.read2 s.pc.toNat

/-- `PC <- PC + 2`, a 16-bit sum (R121). -/
def State.advance (s : State) : State := s.setPc (s.pc + 2#16)

/-- The port the STEP's result appears on (log 2). -/
def State.setResult (s : State) (r : StepResult) : State := { s with result := r }

/-- The STEP returns `Err(fault)` (R120, R124). -/
def State.reportFault (s : State) : State := s.setResult (.err s.fault)

/-- ClearScreen and Draw, the instructions that present the framebuffer (R125). -/
def isDisplay : Instr → Bool
  | .cls | .drw _ _ _ => true
  | .nop | .ret | .jp _ | .ldVxKk _ _ | .addVxKk _ _ | .ldINnn _ => false

/-- Whether a completed STEP returns the framebuffer (R125). -/
def presents (policy : FbOutPolicy) (ins : Instr) (before after : Frame) : Bool :=
  match policy with
  | .onDisplayInstruction => isDisplay ins
  | .onChange => decide (after ≠ before)

/-- `fb_out(ins, FB_before, FB)` (R120, R125). -/
def fbOut (policy : FbOutPolicy) (ins : Instr) (before after : Frame) : Option Frame :=
  if presents policy ins before after then some after else none

/-- The end of a STEP that executed `ins`: `Err(fault)` if the instruction raised a fault, else `Ok(fb_out)` (R120). -/
def State.finish (ins : Instr) (before : Frame) (t : State) : State :=
  if t.fault.code = .none then t.setResult (.ok (fbOut t.params.fbOutPolicy ins before t.fb)) else t.reportFault

/-- A STEP whose fetch leaves memory: MEMORY_BOUNDS with `word` 0, before `PC` changes (R121, 60_exceptions.md R141). -/
def State.fetchFault (addr : Nat) (s : State) : State :=
  (takeFault .memoryBounds s.pc 0x0000#16 (BitVec.ofNat 16 addr) s.markStarted).reportFault

/-- A STEP whose word is no instruction: DECODE_FAILURE (R122). -/
def State.decodeFault (w : Word) (s : State) : State :=
  (takeFault .decodeFailure s.pc w 0x0000#16 s.markStarted).reportFault

/-- STEP (R120): fetch, decode, execute. A recorded fault is sticky: the same `Err` and no state change
(60_exceptions.md R147). The key bits are on the port `keys`, and nothing reads them (R127). -/
def runStep (s : State) : Host.Outcome State Fault Refusal :=
  if s.fault.code = .none then
    match s.fetch with
    | .error addr => .next (s.fetchFault addr)
    | .ok w =>
      match decodeWord w with
      | .error _ => .next (s.decodeFault w)
      | .ok ins =>
        match exec ins s.markStarted.advance with
        | .next t => .next (State.finish ins s.fb t)
        | .fault f => .fault f
        | .refused r => .refused r
  else .next s.reportFault

/-- The host's placing of one table word for the next fetch: the 16-bit word `w`, the bits above `nbits` being 0, its
bytes at `PC` and `PC + 1`, high byte first (R44).
It stands for the loader (70_reset_and_hazards.md R163, log 10). -/
def State.placeTableWord (s : State) (nbits w : Nat) : State :=
  { s with mem := s.mem.writeBytes s.pc.toNat (bytesOfWord (BitVec.ofNat 16 (w % 2 ^ nbits))) }

end Sys2Proof.Machine
end

