-- ==== Sys2Proof/Machine/Step.lean ====
section
/-! DEFINITION. The step of the machine: one STEP transaction (45_step_and_interface.md R120), written in
Machine/Driver.lean. -/

namespace Sys2Proof.Machine

open Sys2Proof

/-- STEP (R120). -/
def step (s : State) : Host.Outcome State Fault Refusal := runStep s

/-- The state whose next STEP fetches the table word `w`: its two bytes stand at `PC`, `PC + 1`. -/
def State.withFetchWord (s : State) (nbits w : Nat) : State := s.placeTableWord nbits w

end Sys2Proof.Machine
end

