-- ==== Sys2Proof/WellFormed.lean ====
section
/-! DEFINITION. The range checks of 30_encoding.md R60, R61 and R64: an operand fits its field. An `Instr` passes them
by its types (R21 "structurally"); the numbers of an assembly line need not. -/

namespace Sys2Proof

/-- A value fits a field of `width` bits: a nibble is at most 15, a Datum at most 0xFFF (R60, R61). -/
def fitsField (width value : Nat) : Bool := decide (value < 2 ^ width)

/-- Every operand is there, none is left over, and each fits its field. -/
def operandsFit : List Nat → List Nat → Bool
  | [], [] => true
  | w :: ws, v :: vs => fitsField w v && operandsFit ws vs
  | _, _ => false

/-- The check on an instruction; Laws/Encoding.lean proves that every instruction passes it (R64). -/
def Instr.wellFormed (i : Instr) : Bool := operandsFit i.variant.fieldWidths i.operands

/-- The check on an assembly line. -/
def AsmLine.wellFormed (l : AsmLine) : Bool := operandsFit l.variant.fieldWidths l.operands

/-- The check on an assembly item: a line as above, each byte of `DB` at most 0xFF, and `ORG` an address of memory
(20_memory.md R40). DEDUCED (log 13): R75 states no range for `ORG` and `DB`. -/
def AsmItem.wellFormed : AsmItem → Bool
  | .line l => l.wellFormed
  | .db bytes => bytes.all (fitsField 8)
  | .org addr => decide (addr < Config.memSize)

/-- The instruction of a well-formed line; the Datum and nibble constructors refuse a value out of range (R61). -/
def AsmLine.toInstr (l : AsmLine) : Option Instr :=
  if l.wellFormed then
    match l.variant, l.operands with
    | .nop, _ => some .nop
    | .cls, _ => some .cls
    | .ret, _ => some .ret
    | .jp, [a] => some (.jp (BitVec.ofNat 12 a))
    | .ldVxKk, [x, k] => some (.ldVxKk (BitVec.ofNat 4 x) (BitVec.ofNat 8 k))
    | .addVxKk, [x, k] => some (.addVxKk (BitVec.ofNat 4 x) (BitVec.ofNat 8 k))
    | .ldINnn, [a] => some (.ldINnn (BitVec.ofNat 12 a))
    | .drw, [x, y, n] => some (.drw (BitVec.ofNat 4 x) (BitVec.ofNat 4 y) (BitVec.ofNat 4 n))
    | _, _ => none
  else none

end Sys2Proof
end

