-- ==== Sys2Proof/Asm.lean ====
section
/-! DEFINITION. The assembly syntax of 30_encoding.md R75 (mnemonics from general knowledge, as the spec says: G3, D17):
how an instruction is written, and where the bytes of a text go. Syntax has no semantics (D17): nothing of the machine
uses this file. -/

namespace Sys2Proof

/-- A hexadecimal digit as registers use it, `0`..`9`, `A`..`F`. -/
def hexDigit (n : Nat) : Char := if n < 10 then Char.ofNat (48 + n) else Char.ofNat (55 + n)

/-- `V0`..`VF`. -/
def regName (x : Nibble) : String := "V" ++ String.singleton (hexDigit x.toNat)

/-- `count` hexadecimal digits of `n`, with `0x`. -/
def hexNumber (count n : Nat) : String :=
  "0x" ++ String.ofList ((List.range count).reverse.map (fun k => hexDigit (n / 16 ^ k % 16)))

/-- The line R75 writes for an instruction. -/
def Instr.text : Instr → String
  | .nop => "NOP"
  | .cls => "CLS"
  | .ret => "RET"
  | .jp nnn => "JP " ++ hexNumber 3 nnn.toNat
  | .ldVxKk x kk => "LD " ++ regName x ++ ", " ++ hexNumber 2 kk.toNat
  | .addVxKk x kk => "ADD " ++ regName x ++ ", " ++ hexNumber 2 kk.toNat
  | .ldINnn nnn => "LD I, " ++ hexNumber 3 nnn.toNat
  | .drw x y n => "DRW " ++ regName x ++ ", " ++ regName y ++ ", " ++ toString n.toNat

/-- The instruction of an assembly line as a line of R75's own form. -/
def Instr.toLine (i : Instr) : AsmLine := { variant := i.variant, operands := i.operands }

/-- The bytes an item places; an ill-formed item places none and the text is rejected. -/
def AsmItem.bytes : AsmItem → Option (List Byte)
  | .line l => l.toInstr.map (fun i => bytesOfWord (encode i))
  | .db bytes => if (AsmItem.db bytes).wellFormed then some (bytes.map (BitVec.ofNat 8)) else none
  | .org addr => if (AsmItem.org addr).wellFormed then some [] else none

/-- The next address after an item that began at `a` and placed `count` bytes. -/
def AsmItem.next (a count : Nat) : AsmItem → Nat
  | .org addr => addr
  | .line _ | .db _ => a + count

/-- The bytes of a text with their addresses, from address `a` on. -/
def assembleFrom : Nat → List AsmItem → Option (List (Nat × Byte))
  | _, [] => some []
  | a, it :: rest =>
    match it.bytes with
    | none => none
    | some bs =>
      match assembleFrom (it.next a bs.length) rest with
      | none => none
      | some cells => some ((List.range bs.length).map (a + ·) |>.zip bs |>.append cells)

/-- "A program starts at 0x200 unless ORG says otherwise" (R75). -/
def assemble (items : List AsmItem) : Option (List (Nat × Byte)) := assembleFrom Config.programBase items

end Sys2Proof
end

