-- ==== Sys2Proof/Machine/Transactions.lean ====
section
/-! DEFINITION. The host's transactions and queries (45_step_and_interface.md R129 to R131): RESET, LOAD, STEP with its
key bits, TIMER_TICK; the buzzer level and the tick interval. -/

namespace Sys2Proof.Machine

open Sys2Proof

/-- A transaction of R131; the host issues one at a time and each is atomic (R126). -/
inductive Transaction where
  | reset
  | load (bytes : List Byte)
  | step (keys : BitVec 16)
  | timerTick
  deriving DecidableEq, Repr

/-- What LOAD copies: the bytes from 0x200 on, cut to 3584 (70_reset_and_hazards.md R163). -/
def State.loadImage (s : State) (bytes : List Byte) : State :=
  { s with mem := s.mem.writeBytes Config.programBase (bytes.take Config.maxProgram) }

/-- One decrement, a timer at 0 staying 0 (60_exceptions.md R151). PRESUMED by the spec itself (G1, D12); log 12. -/
def tickDown (t : Byte) : Byte := if t = 0x00#8 then 0x00#8 else t - 1#8

/-- TIMER_TICK (60_exceptions.md R151); it runs also when a fault is recorded. -/
def State.timerTick (s : State) : State := { s with dt := tickDown s.dt, st := tickDown s.st }

/-- The key bits a STEP is called with (R127). -/
def State.setKeys (s : State) (k : BitVec 16) : State := { s with keys := k }

/-- One transaction. RESET gives the state of 70_reset_and_hazards.md R160 for the machine's configuration, from any
state; LOAD is refused once `started` (R163). -/
def transact : Transaction → State → Host.Outcome State Fault Refusal
  | .reset, s => .next (State.resetWith s.params)
  | .load bytes, s => if s.started then .refused .loadAfterStart else .next (s.loadImage bytes)
  | .step keys, s => Sys2Proof.Machine.step (s.setKeys keys)
  | .timerTick, s => .next s.timerTick

/-- The buzzer query: `buzzer = (ST /= 0)` (R130). PRESUMED by the spec itself (G2, D13); log 12. -/
def State.buzzer (s : State) : Bool := decide (s.st ≠ 0x00#8)

/-- The clock query: the constant TICK_INTERVAL (R129); no state is read. -/
def State.tickInterval (_ : State) : Nat := Config.tickInterval

end Sys2Proof.Machine
end

