-- ==== Sys2Proof/Safety.lean ====
section
/-! DEFINITION. What claims are stated in: a recorded fault, the end of a run, the frames, and the invariants. -/

namespace Sys2Proof.Machine

open Sys2Proof

/-- A fault is recorded; the core is stopped until RESET (60_exceptions.md R147). -/
def State.faulted (s : State) : Prop := s.fault.code ≠ .none

/-- A run that ended idle: the word at `PC` is a Jump to `PC` itself (45_step_and_interface.md R132 (b)). -/
def State.idle (s : State) : Prop :=
  s.fault.code = .none ∧ ∃ w nnn, s.fetch = .ok w ∧ decodeWord w = .ok (.jp nnn) ∧ zextDatum nnn = s.pc

/-- The end of a run: faulted or idle (R132). -/
def State.ended (s : State) : Prop := s.faulted ∨ s.idle

/-- The next STEP fetches the word `w`: no fault is recorded, both bytes lie in memory, and they are `w`, high byte
first (45_step_and_interface.md R120, 20_memory.md R42, R44). -/
abbrev State.fetches (s : State) (w : Word) : Prop :=
  s.fault.code = .none ∧ s.pc.toNat + 1 ≤ 4095 ∧
    (s.readByte s.pc.toNat).toNat * 256 + (s.readByte (s.pc.toNat + 1)).toNat = w.toNat

/-- Every byte of memory reads as before. -/
def SameMemory (s t : State) : Prop := ∀ a, t.readByte a = s.readByte a

/-- Every pixel is as before. -/
def SameScreen (s t : State) : Prop := ∀ r c, t.pixel r c = s.pixel r c

/-- Every general register but those in `xs` is as before. -/
def SameRegsBut (xs : List Nibble) (s t : State) : Prop := ∀ y, y ∉ xs → t.getV y = s.getV y

/-- What no instruction rule writes, whether it completes or raises a fault: the reserved stack pointer and stack, the
timers, `started`, the configuration and the two ports (10_state.md R29, R30, R31, 45_step_and_interface.md R123). -/
structure SameReserved (s t : State) : Prop where
  sp : t.sp = s.sp
  stack : t.stack = s.stack
  dt : t.dt = s.dt
  st : t.st = s.st
  started : t.started = s.started
  params : t.params = s.params
  keys : t.keys = s.keys
  result : t.result = s.result

/-- What 60_exceptions.md R145 says a fault leaves alone: every architectural register, byte and pixel, `PC` included. -/
structure SameArchitecture (s t : State) : Prop where
  v : t.v = s.v
  i : t.i = s.i
  pc : t.pc = s.pc
  sp : t.sp = s.sp
  stack : t.stack = s.stack
  dt : t.dt = s.dt
  st : t.st = s.st
  mem : t.mem = s.mem
  fb : t.fb = s.fb

/-- The start column and row of `Draw(x, y, n)`, told by the configuration (41_draw.md R101, R102, D8): the registers as
they are, or, with DRAW_COORDS_FIRST false, with `VF` read as the 0 it was just cleared to. -/
abbrev StartsAt (s : State) (x y : Nibble) (sx sy : Nat) : Prop :=
  if s.params.drawCoordsFirst = true then sx = (s.getV x).toNat % 64 ∧ sy = (s.getV y).toNat % 32
  else sx = (if x = 15#4 then 0 else (s.getV x).toNat % 64) ∧ sy = (if y = 15#4 then 0 else (s.getV y).toNat % 32)

/-- The sprite's pixel (i, j), bit `7 - j` of the byte at `I + i` (41_draw.md R103, R104). -/
def SpriteBit (s : State) (i j : Nat) : Bool := (s.readByte (s.i.toNat + i)).getLsbD (7 - j)

/-- Screen position (r, c) is where the sprite's pixel (i, j) goes: `((sy + i) mod 32, (sx + j) mod 64)` (41_draw.md
R104). -/
abbrev LandsOn (sx sy i j : Nat) (r : Fin 32) (c : Fin 64) : Prop := r.val = (sy + i) % 32 ∧ c.val = (sx + j) % 64

/-- The fault register holds what a rule of 60_exceptions.md R141 records: NONE with zeros; DECODE_FAILURE with a word
that decodes to nothing; UNIMPLEMENTED with `00EE` or `Dxy0`; MEMORY_BOUNDS with an address past 4095 and the word 0 or
that of a Draw; never RANGE_VIOLATION. -/
def FaultStatus.legal (f : FaultStatus) : Prop :=
  match f.code with
  | .none => f.pc = 0#16 ∧ f.word = 0#16 ∧ f.addr = 0#16
  | .decodeFailure => (∃ r, decodeWord f.word = .error r) ∧ f.addr = 0#16
  | .unimplemented => (f.word = 0x00EE#16 ∨ ∃ x y, decodeWord f.word = .ok (.drw x y 0#4)) ∧ f.addr = 0#16
  | .memoryBounds => 4095 < f.addr.toNat ∧ (f.word = 0#16 ∨ ∃ x y n, decodeWord f.word = .ok (.drw x y n))
  | .rangeViolation => False

/-- THE INVARIANT of every reachable state: memory and stack in their form; the area below 0x200 zero (20_memory.md
R47, R52); `I <= 0xFFF` (10_state.md R25); `PC <= 0x1000` (R28); both timers 0 (60_exceptions.md R151); the fault
register legal, naming the `PC` the core stopped at (R145, R147), and NONE before the first STEP. -/
structure State.Inv (s : State) : Prop where
  memory : s.mem.wf = true
  stackForm : CallStack.wf s.stack = true
  reserved : ∀ a, a < 0x200 → s.readByte a = 0#8
  index : s.i.toNat ≤ 0xFFF
  counter : s.pc.toNat ≤ 0x1000
  delay : s.dt = 0#8
  sound : s.st = 0#8
  fault : s.fault.legal
  stopped : s.fault.code ≠ .none → s.fault.pc = s.pc ∧ s.started = true

end Sys2Proof.Machine
end

