-- ==== Sys2Proof/Certificates/Slice0/Obligations.lean ====
section
/-! DEFINITION. The statements for the provers. Each docstring names the part of spec/ it formalises; where it rests on
a decision the spec marks as its own (92_eei_decisions.md D<n>) or on a choice of the model (log <n>), it says so. -/

open Sys2Proof Sys2Proof.Machine

/-! ## Encoding (30_encoding.md) -/

/-- Decode and encode agree on every instruction, alone and in front of any bytes (30_encoding.md section 4, the rows of
opcode_table.json). -/
def Obligations.DecodeOfEncode : Prop :=
  ∀ (i : Instr) (rest : List Byte),
    decodeWord (encode i) = .ok i ∧ decodeBytes (bytesOfWord (encode i) ++ rest) = .ok (i, rest)

/-- A word that decodes is the word of its instruction: every word has one meaning (30_encoding.md section 5, the
coverage check). -/
def Obligations.EncodeOfDecode : Prop :=
  ∀ (w : Word) (i : Instr), decodeWord w = .ok i → encode i = w

/-- R65, the dispatch on the high nibble, with the fields taken as numbers. -/
def Obligations.DecoderFollowsDispatch : Prop :=
  ∀ w : Word,
    let op := w.toNat / 4096
    let x : Nibble := BitVec.ofNat 4 (w.toNat / 256 % 16)
    let y : Nibble := BitVec.ofNat 4 (w.toNat / 16 % 16)
    let n : Nibble := BitVec.ofNat 4 (w.toNat % 16)
    let kk : Byte := BitVec.ofNat 8 (w.toNat % 256)
    let nnn : Datum := BitVec.ofNat 12 (w.toNat % 4096)
    decodeWord w =
      if op = 0x0 then
        if w.toNat = 0x0000 then .ok .nop
        else if w.toNat = 0x00E0 then .ok .cls
        else if w.toNat = 0x00EE then .ok .ret
        else .error (.decodeFailure w)
      else if op = 0x1 then .ok (.jp nnn)
      else if op = 0x6 then .ok (.ldVxKk x kk)
      else if op = 0x7 then .ok (.addVxKk x kk)
      else if op = 0xA then .ok (.ldINnn nnn)
      else if op = 0xD then .ok (.drw x y n)
      else .error (.decodeFailure w)

/-- A word decodes to an instruction of a row of opcode_table.json exactly when `word & mask = match`; so no two rows
overlap (30_encoding.md section 4 and section 5). -/
def Obligations.TableRowsGiveTheVariant : Prop :=
  ∀ row ∈ opcodeTable, ∀ w : Word,
    w &&& row.mask = row.pattern ↔ ∃ i, decodeWord w = .ok i ∧ i.variant = row.variant

/-- R66 and R67: the three fixed words, each a full 16-bit match. -/
def Obligations.FixedWordsDecode : Prop :=
  ∀ w : Word,
    (decodeWord w = .ok .nop ↔ w &&& 0xFFFF#16 = 0x0000#16) ∧
    (decodeWord w = .ok .cls ↔ w &&& 0xFFFF#16 = 0x00E0#16) ∧
    (decodeWord w = .ok .ret ↔ w &&& 0xFFFF#16 = 0x00EE#16)

/-- R68 and R69: the words with a 4-bit opcode and their operands. -/
def Obligations.FieldWordsDecode : Prop :=
  ∀ w : Word,
    (w &&& 0xF000#16 = 0x1000#16 → decodeWord w = .ok (.jp (w.extractLsb' 0 12))) ∧
    (w &&& 0xF000#16 = 0xA000#16 → decodeWord w = .ok (.ldINnn (w.extractLsb' 0 12))) ∧
    (w &&& 0xF000#16 = 0x6000#16 → decodeWord w = .ok (.ldVxKk (w.extractLsb' 8 4) (w.extractLsb' 0 8))) ∧
    (w &&& 0xF000#16 = 0x7000#16 → decodeWord w = .ok (.addVxKk (w.extractLsb' 8 4) (w.extractLsb' 0 8))) ∧
    (w &&& 0xF000#16 = 0xD000#16 →
      decodeWord w = .ok (.drw (w.extractLsb' 8 4) (w.extractLsb' 4 4) (w.extractLsb' 0 4)))

/-- The words that decode to nothing, as the ranges 30_encoding.md section 5 lists them; the rejection names the word. -/
def Obligations.UnmatchedWordsFailToDecode : Prop :=
  ∀ w : Word,
    (decodeWord w = .error (.decodeFailure w) ↔
      (0x0001 ≤ w.toNat ∧ w.toNat ≤ 0x00DF) ∨ (0x00E1 ≤ w.toNat ∧ w.toNat ≤ 0x00ED) ∨
      (0x00EF ≤ w.toNat ∧ w.toNat ≤ 0x0FFF) ∨
      w.toNat / 4096 ∈ [0x2, 0x3, 0x4, 0x5, 0x8, 0x9, 0xB, 0xC, 0xE, 0xF]) ∧
    ∀ r, decodeWord w = .error r → r = .decodeFailure w

/-- Words written out in 95_test_vectors.md (D1, D2, D3, D9, D12, D14, D15, D16, D18, D19) decode as it says. -/
def Obligations.SpecVectorsDecode : Prop :=
  decodeWord 0x0000#16 = .ok .nop ∧ decodeWord 0x00E0#16 = .ok .cls ∧ decodeWord 0x00EE#16 = .ok .ret ∧
  decodeWord 0x1FFF#16 = .ok (.jp 0xFFF#12) ∧ decodeWord 0x600A#16 = .ok (.ldVxKk 0#4 0x0A#8) ∧
  decodeWord 0x7005#16 = .ok (.addVxKk 0#4 0x05#8) ∧
  decodeWord 0x8014#16 = .error (.decodeFailure 0x8014#16) ∧
  decodeWord 0xA20A#16 = .ok (.ldINnn 0x20A#12) ∧ decodeWord 0xD015#16 = .ok (.drw 0#4 1#4 5#4) ∧
  decodeWord 0xDAB0#16 = .ok (.drw 10#4 11#4 0#4)

/-- R60: the two nibbles of every byte. -/
def Obligations.NibblesSplitEveryByte : Prop :=
  ∀ b : Byte,
    (nibbles b).1 = (b >>> 4).setWidth 4 ∧ (nibbles b).1.toNat = b.toNat / 16 ∧
    (nibbles b).2 = (b &&& 0xF#8).setWidth 4 ∧ (nibbles b).2.toNat = b.toNat % 16 ∧
    (nibbles b).1.toNat ≤ 15 ∧ (nibbles b).2.toNat ≤ 15

/-- Datum assembly (30_encoding.md section 1): the 12-bit value of three nibbles, never above 0xFFF; and the check on a
written address accepts exactly the values up to 0xFFF. -/
def Obligations.DatumFitsTwelveBits : Prop :=
  (∀ a b c : Nibble, (datum a b c).toNat = a.toNat * 256 + b.toNat * 16 + c.toNat ∧ (datum a b c).toNat ≤ 0xFFF) ∧
  ∀ k : Nat, (AsmLine.toInstr { variant := .jp, operands := [k] }).isSome = true ↔ k ≤ 0xFFF

/-! ## The instructions -/

/-- R81: Nop changes nothing; the STEP that runs it advances `PC` by 2 and presents no framebuffer. -/
def Obligations.NopChangesNothing : Prop :=
  decodeWord 0x0000#16 = .ok .nop ∧
  (∀ s : State, exec .nop s = .next s) ∧
  ∀ s : State, s.fetches 0x0000#16 →
    step s = .next { s with started := true, pc := s.pc + 2#16, result := .ok none }

/-- ClearScreen (40_arith_control.md section 2): every pixel unlit, everything else as it was; twice is once. -/
def Obligations.ClearScreenUnlightsEveryPixel : Prop :=
  decodeWord 0x00E0#16 = .ok .cls ∧
  ∀ s : State, ∃ t, exec .cls s = .next t ∧
    (∀ r c, t.pixel r c = false) ∧
    SameRegsBut [] s t ∧ t.i = s.i ∧ t.pc = s.pc ∧ t.fault = s.fault ∧ SameMemory s t ∧ SameReserved s t ∧
    exec .cls t = .next t

/-- Return (40_arith_control.md section 3, decision D6): it raises UNIMPLEMENTED, and that fault entry is its whole
effect. At the rule `PC = pc_i + 2`, so `pc_i = PC - 2` (log 9). -/
def Obligations.ReturnRaisesUnimplemented : Prop :=
  decodeWord 0x00EE#16 = .ok .ret ∧
  (∀ s : State, ∃ t, exec .ret s = .next t ∧
    t.fault = { code := .unimplemented, pc := s.pc - 2#16, word := 0x00EE#16, addr := 0#16 } ∧ t.pc = s.pc - 2#16 ∧
    SameRegsBut [] s t ∧ t.i = s.i ∧ SameScreen s t ∧ SameMemory s t ∧ SameReserved s t) ∧
  ∀ s : State, s.fetches 0x00EE#16 → ∃ t, step s = .next t ∧
    t.fault = { code := .unimplemented, pc := s.pc, word := 0x00EE#16, addr := 0#16 } ∧
    SameArchitecture s t ∧ t.started = true ∧ t.result = .err t.fault

/-- Jump (40_arith_control.md section 4): `PC` is the 12-bit target, whatever it is; 0x1234 gives 0x234. -/
def Obligations.JumpSetsPc : Prop :=
  (∀ (nnn : Datum) (s : State), ∃ t, exec (.jp nnn) s = .next t ∧
    t.pc.toNat = nnn.toNat ∧
    SameRegsBut [] s t ∧ t.i = s.i ∧ t.fault = s.fault ∧ SameScreen s t ∧ SameMemory s t ∧ SameReserved s t) ∧
  ∀ s : State, s.fetches 0x1234#16 → ∃ t, step s = .next t ∧ t.pc = 0x234#16

/-- R85: Load overwrites `V[x]`, `VF` too when x = 15, and nothing else. -/
def Obligations.LoadWritesRegister : Prop :=
  ∀ (x : Nibble) (kk : Byte),
    (∀ w : Word, w.toNat = 0x6000 + x.toNat * 256 + kk.toNat → decodeWord w = .ok (.ldVxKk x kk)) ∧
    ∀ s : State, ∃ t, exec (.ldVxKk x kk) s = .next t ∧
      t.getV x = kk ∧
      SameRegsBut [x] s t ∧ t.i = s.i ∧ t.pc = s.pc ∧ t.fault = s.fault ∧ SameScreen s t ∧ SameMemory s t ∧
      SameReserved s t

/-- R86: Add is addition modulo 256 on `V[x]`; no flag, `VF` only as the destination. -/
def Obligations.AddWrapsWithoutFlag : Prop :=
  ∀ (x : Nibble) (kk : Byte),
    (∀ w : Word, w.toNat = 0x7000 + x.toNat * 256 + kk.toNat → decodeWord w = .ok (.addVxKk x kk)) ∧
    ∀ s : State, ∃ t, exec (.addVxKk x kk) s = .next t ∧
      (t.getV x).toNat = ((s.getV x).toNat + kk.toNat) % 256 ∧
      (x ≠ 15#4 → t.getV 15#4 = s.getV 15#4) ∧
      SameRegsBut [x] s t ∧ t.i = s.i ∧ t.pc = s.pc ∧ t.fault = s.fault ∧ SameScreen s t ∧ SameMemory s t ∧
      SameReserved s t

/-- R87: SetIndex writes the zero-extended address to `I`, unchecked, and nothing else. -/
def Obligations.SetIndexWritesIndex : Prop :=
  ∀ nnn : Datum,
    (∀ w : Word, w.toNat = 0xA000 + nnn.toNat → decodeWord w = .ok (.ldINnn nnn)) ∧
    ∀ s : State, ∃ t, exec (.ldINnn nnn) s = .next t ∧
      t.i.toNat = nnn.toNat ∧ t.i.extractLsb' 12 4 = 0#4 ∧
      SameRegsBut [] s t ∧ t.pc = s.pc ∧ t.fault = s.fault ∧ SameScreen s t ∧ SameMemory s t ∧ SameReserved s t

/-- Draw's compositing (41_draw.md sections 1 to 4): a Draw of n rows whose bytes lie in memory completes; each pixel
of the footprint is XORed with its sprite bit, wrapped at both edges, and every other pixel stays. The start
coordinates follow DRAW_COORDS_FIRST (decision D8). -/
def Obligations.DrawXorsFootprint : Prop :=
  ∀ (x y n : Nibble) (s : State) (sx sy : Nat),
    n ≠ 0#4 → s.i.toNat + n.toNat ≤ 4096 → StartsAt s x y sx sy →
    ∃ t, exec (.drw x y n) s = .next t ∧
      (∀ i j r c, i < n.toNat → j < 8 → LandsOn sx sy i j r c →
        t.pixel r c = (s.pixel r c ^^ SpriteBit s i j)) ∧
      ∀ r c, (∀ i j, i < n.toNat → j < 8 → ¬ LandsOn sx sy i j r c) → t.pixel r c = s.pixel r c

/-- Draw's collision flag (41_draw.md section 4): `VF` ends 1 exactly when a lit sprite pixel met a lit screen pixel,
and 0 otherwise. -/
def Obligations.DrawCollisionFlag : Prop :=
  ∀ (x y n : Nibble) (s : State) (sx sy : Nat),
    n ≠ 0#4 → s.i.toNat + n.toNat ≤ 4096 → StartsAt s x y sx sy →
    ∃ t, exec (.drw x y n) s = .next t ∧
      ((∃ i j r c, i < n.toNat ∧ j < 8 ∧ LandsOn sx sy i j r c ∧ SpriteBit s i j = true ∧ s.pixel r c = true) →
        t.getV 15#4 = 1#8) ∧
      ((¬ ∃ i j r c, i < n.toNat ∧ j < 8 ∧ LandsOn sx sy i j r c ∧ SpriteBit s i j = true ∧ s.pixel r c = true) →
        t.getV 15#4 = 0#8)

/-- Draw's frame (41_draw.md section 1): a Draw that completes writes `FB` and `VF` and stores nothing. -/
def Obligations.DrawFrame : Prop :=
  ∀ (x y n : Nibble) (s : State),
    n ≠ 0#4 → s.i.toNat + n.toNat ≤ 4096 →
    ∃ t, exec (.drw x y n) s = .next t ∧
      SameRegsBut [15#4] s t ∧ t.i = s.i ∧ t.pc = s.pc ∧ t.fault = s.fault ∧ SameMemory s t ∧ SameReserved s t

/-- Draw with n = 0 (41_draw.md section 5, decision D7): under `fault` it raises UNIMPLEMENTED and nothing else happens,
under `empty` it clears `VF` and nothing else happens. `pc_i = PC - 2` (log 9). -/
def Obligations.DrawOfHeightZero : Prop :=
  ∀ (x y : Nibble) (s : State),
    (s.params.drawN0Policy = .fault → ∃ t, exec (.drw x y 0#4) s = .next t ∧
      t.fault.code = .unimplemented ∧ t.fault.pc = s.pc - 2#16 ∧
      t.fault.word.toNat = 0xD000 + x.toNat * 256 + y.toNat * 16 ∧ t.fault.addr = 0#16 ∧ t.pc = s.pc - 2#16 ∧
      SameRegsBut [] s t ∧ t.i = s.i ∧ SameScreen s t ∧ SameMemory s t ∧ SameReserved s t) ∧
    (s.params.drawN0Policy = .empty → ∃ t, exec (.drw x y 0#4) s = .next t ∧
      t.getV 15#4 = 0#8 ∧
      SameRegsBut [15#4] s t ∧ t.i = s.i ∧ t.pc = s.pc ∧ t.fault = s.fault ∧ SameScreen s t ∧ SameMemory s t ∧
      SameReserved s t)

/-- Draw past the end of memory (41_draw.md section 3, decision D3): MEMORY_BOUNDS at the first sprite address above
4095, before any pixel or `VF` changes. `pc_i = PC - 2` (log 9). -/
def Obligations.DrawOutsideMemoryFaults : Prop :=
  ∀ (x y n : Nibble) (s : State),
    n ≠ 0#4 → 4096 < s.i.toNat + n.toNat →
    ∃ t, exec (.drw x y n) s = .next t ∧
      t.fault.code = .memoryBounds ∧ t.fault.pc = s.pc - 2#16 ∧
      t.fault.word.toNat = 0xD000 + x.toNat * 256 + y.toNat * 16 + n.toNat ∧
      t.fault.addr.toNat = (if s.i.toNat ≤ 4095 then 4096 else s.i.toNat) ∧ t.pc = s.pc - 2#16 ∧
      SameRegsBut [] s t ∧ t.i = s.i ∧ SameScreen s t ∧ SameMemory s t ∧ SameReserved s t

/-- Draw twice (41_draw.md section 7): the same Draw again restores every pixel, and its `VF` is 1 exactly when the
first one lit a pixel. For x = 15 or y = 15 the first Draw moves the second one, so those are left out, as the spec
leaves them out. -/
def Obligations.DrawTwiceRestoresScreen : Prop :=
  ∀ (x y n : Nibble) (s : State),
    x ≠ 15#4 → y ≠ 15#4 → n ≠ 0#4 → s.i.toNat + n.toNat ≤ 4096 →
    ∃ t u, exec (.drw x y n) s = .next t ∧ exec (.drw x y n) t = .next u ∧
      SameScreen s u ∧
      ((∃ r c, s.pixel r c = false ∧ t.pixel r c = true) → u.getV 15#4 = 1#8) ∧
      ((¬ ∃ r c, s.pixel r c = false ∧ t.pixel r c = true) → u.getV 15#4 = 0#8)

/-! ## What no instruction does -/

/-- Who writes general registers (10_state.md section 2, derived there): a register an instruction changes is the `x`
of a Load or Add, or `VF` and the instruction a Draw. -/
def Obligations.RegisterWriters : Prop :=
  ∀ (i : Instr) (s t : State) (y : Nibble), exec i s = .next t → t.getV y ≠ s.getV y →
    (∃ kk, i = .ldVxKk y kk) ∨ (∃ kk, i = .addVxKk y kk) ∨ (y = 15#4 ∧ ∃ a b n, i = .drw a b n)

/-- Who writes `I` (10_state.md section 4): SetIndex alone. -/
def Obligations.IndexWriters : Prop :=
  ∀ (i : Instr) (s t : State), exec i s = .next t → t.i ≠ s.i → ∃ nnn, i = .ldINnn nnn ∧ t.i.toNat = nnn.toNat

/-- Who changes pixels (10_state.md section 9, "mutated only by ClearScreen and Draw"), over a whole STEP.  That the Draw
has n ≠ 0 does not follow from that section: it rests on 41_draw.md section 5, where Draw with n = 0 changes no pixel
under either value of `DRAW_N0_POLICY`, which is the spec's own decision D7 (log 20). -/
def Obligations.ScreenWriters : Prop :=
  ∀ (s t : State) (r : Fin 32) (c : Fin 64), step s = .next t → t.pixel r c ≠ s.pixel r c →
    ∃ w, s.fetches w ∧ (decodeWord w = .ok .cls ∨ ∃ x y n, n ≠ 0#4 ∧ decodeWord w = .ok (.drw x y n))

/-- No STEP stores to memory, and none touches the reserved stack, the timers, the configuration or the keys
(20_memory.md section 3, 10_state.md sections 6, 7 and 10); the configuration is the model's own field (log 3). -/
def Obligations.StepStoresNothing : Prop :=
  ∀ s t : State, step s = .next t →
    SameMemory s t ∧ t.mem = s.mem ∧ t.sp = s.sp ∧ t.stack = s.stack ∧ t.dt = s.dt ∧ t.st = s.st ∧
    t.params = s.params ∧ t.keys = s.keys

/-- R26: `PC` starts at 0x200; a completed STEP adds 2 to it, or, for a Jump, puts the 12-bit target there. -/
def Obligations.ProgramCounterRule : Prop :=
  State.reset.pc = 0x200#16 ∧
  ∀ (s t : State) (w : Word) (i : Instr),
    s.fetches w → decodeWord w = .ok i → step s = .next t → t.fault.code = .none →
    t.pc = match i with
      | .jp nnn => nnn.setWidth 16
      | .nop | .cls | .ret | .ldVxKk _ _ | .addVxKk _ _ | .ldINnn _ | .drw _ _ _ => s.pc + 2#16

/-! ## The STEP transaction -/

/-- A STEP runs the instruction its two bytes decode to, with `started` set and `PC` advanced, and puts the result on
its port (45_step_and_interface.md sections 1 and 2; the port is the model's own field, log 2). -/
def Obligations.StepRunsDecodedInstruction : Prop :=
  ∀ (s : State) (w : Word) (i : Instr), s.fetches w → decodeWord w = .ok i →
    step s =
      match exec i { s with started := true, pc := s.pc + 2#16 } with
      | .next t =>
        .next { t with
          result :=
            if t.fault.code = .none then
              .ok (match t.params.fbOutPolicy with
                | .onDisplayInstruction => if i.variant = .cls ∨ i.variant = .drw then some t.fb else none
                | .onChange => if t.fb = s.fb then none else some t.fb)
            else .err t.fault }
      | .fault f => .fault f
      | .refused r => .refused r

/-- R44: the byte at `PC` is bits 15..8 of the word and the byte at `PC + 1` bits 7..0. -/
def Obligations.FetchIsBigEndian : Prop :=
  ∀ s : State, s.pc.toNat + 1 ≤ 4095 →
    ∃ w, s.fetch = .ok w ∧
      w = ((s.readByte s.pc.toNat).setWidth 16 <<< 8) ||| (s.readByte (s.pc.toNat + 1)).setWidth 16

/-- The bounds check of every read (20_memory.md section 2, decision D3): the first byte outside 0..4095, without
wrapping, or the bytes. -/
def Obligations.ReadsCheckBounds : Prop :=
  ∀ (m : Memory) (addr : Nat),
    m.read1 addr = (if 4095 < addr then .error addr else .ok (m.byte addr)) ∧
    m.read2 addr =
      if 4095 < addr then .error addr
      else if 4095 < addr + 1 then .error (addr + 1)
      else .ok (m.byte addr ++ m.byte (addr + 1))

/-- A fetch past 4095 (45_step_and_interface.md section 1, decisions D3 and D4): MEMORY_BOUNDS with word 0 and the first
address outside, before `PC` changes. -/
def Obligations.FetchOutsideMemoryFaults : Prop :=
  ∀ s : State, s.fault.code = .none → 4095 < s.pc.toNat + 1 →
    ∃ t, step s = .next t ∧
      t.fault.code = .memoryBounds ∧ t.fault.pc = s.pc ∧ t.fault.word = 0#16 ∧
      t.fault.addr.toNat = (if s.pc.toNat = 4095 then 4096 else s.pc.toNat) ∧
      SameArchitecture s t ∧ SameMemory s t ∧ t.started = true ∧ t.params = s.params ∧ t.keys = s.keys ∧
      t.result = .err t.fault

/-- A word that decodes to nothing raises DECODE_FAILURE with the word and its address (45_step_and_interface.md
section 1); that `addr` is then 0, that `PC` and the rest of the state stay and that `started` is set is
60_exceptions.md section 4, the spec's own decisions D4 and D5 (log 20).  The result port is the model's own field (log 2). -/
def Obligations.UndecodableWordFaults : Prop :=
  ∀ (s : State) (w : Word) (r : DecodeReject), s.fetches w → decodeWord w = .error r →
    ∃ t, step s = .next t ∧
      t.fault = { code := .decodeFailure, pc := s.pc, word := w, addr := 0#16 } ∧
      SameArchitecture s t ∧ SameMemory s t ∧ t.started = true ∧ t.params = s.params ∧ t.keys = s.keys ∧
      t.result = .err t.fault

/-- A recorded fault is sticky (60_exceptions.md section 5, decision D4): a STEP returns the same `Err` and changes no
state, TIMER_TICK and LOAD leave the fault, and RESET clears it. -/
def Obligations.FaultIsSticky : Prop :=
  ∀ s : State, s.fault.code ≠ .none →
    (∃ t, step s = .next t ∧ SameArchitecture s t ∧ SameMemory s t ∧ t.fault = s.fault ∧ t.started = s.started ∧
      t.params = s.params ∧ t.keys = s.keys ∧ t.result = .err s.fault) ∧
    (∀ tr t, transact tr s = .next t → tr ≠ .reset → t.fault = s.fault) ∧
    ∃ t, transact .reset s = .next t ∧ t.fault.code = .none

/-- The state after a fault (60_exceptions.md section 4, decision D4): a STEP that ends in a fault leaves every
architectural register, byte and pixel as it was, `PC` included; `fault.pc` is that `PC`. -/
def Obligations.FaultingStepChangesNothing : Prop :=
  ∀ s t : State, s.fault.code = .none → step s = .next t → t.fault.code ≠ .none →
    SameArchitecture s t ∧ SameMemory s t ∧ t.fault.pc = s.pc ∧ t.started = true ∧ t.params = s.params ∧
    t.keys = s.keys ∧ t.result = .err t.fault

/-- Which fault a STEP takes (60_exceptions.md sections 2 and 3, decisions D5, D7 and D18): fetch bounds, then decode
failure, then Return or Draw with n = 0, then Draw's sprite bounds; every other instruction never faults. -/
def Obligations.FaultPriority : Prop :=
  ∀ s : State, s.fault.code = .none → ∃ t, step s = .next t ∧
    (4095 < s.pc.toNat + 1 → t.fault.code = .memoryBounds) ∧
    ∀ w, s.fetches w →
      (∀ r, decodeWord w = .error r → t.fault.code = .decodeFailure) ∧
      ∀ i, decodeWord w = .ok i → t.fault.code =
        match i with
        | .nop | .cls | .jp _ | .ldVxKk _ _ | .addVxKk _ _ | .ldINnn _ => .none
        | .ret => .unimplemented
        | .drw _ _ n =>
          if n = 0#4 then (if s.params.drawN0Policy = .fault then .unimplemented else .none)
          else if 4096 < s.i.toNat + n.toNat then .memoryBounds
          else .none

/-- R128: a STEP always completes, with `Ok` or `Err`. -/
def Obligations.StepAlwaysCompletes : Prop :=
  ∀ s : State, ∃ t, step s = .next t ∧ ((∃ fbOut, t.result = .ok fbOut) ∨ ∃ fault, t.result = .err fault)

/-- R124: the result is `Ok(None)`, `Ok(Some(F))` with F the framebuffer after the step, or `Err` with the fault status
register. -/
def Obligations.ResultCarriesFrameOrFault : Prop :=
  ∀ s t : State, step s = .next t →
    (t.fault.code = .none → t.result = .ok none ∨ t.result = .ok (some t.fb)) ∧
    (t.fault.code ≠ .none → t.result = .err t.fault)

/-- When the framebuffer is returned (45_step_and_interface.md section 2, decision D9), under both policies; and when it
is not returned it is the framebuffer from before the step. -/
def Obligations.FramebufferOutput : Prop :=
  ∀ (s t : State) (w : Word) (i : Instr),
    s.fetches w → decodeWord w = .ok i → step s = .next t → t.fault.code = .none →
    (s.params.fbOutPolicy = .onDisplayInstruction →
      (t.result = .ok (some t.fb) ↔ i.variant = .cls ∨ i.variant = .drw)) ∧
    (s.params.fbOutPolicy = .onChange → (t.result = .ok (some t.fb) ↔ ∃ r c, t.pixel r c ≠ s.pixel r c)) ∧
    (t.result = .ok none → SameScreen s t)

/-- The key bits have no effect on any state or output (45_step_and_interface.md section 3, decision D16): a STEP with
other keys gives the same state but for the port the keys came on (log 7). -/
def Obligations.KeysHaveNoEffect : Prop :=
  ∀ (s : State) (k k' : BitVec 16), ∃ t, transact (.step k) s = .next t ∧
    transact (.step k') s = .next { t with keys := k' }

/-! ## Invariants -/

/-- The invariant holds after RESET, for every configuration; `stack` is empty by the model's choice (log 5). -/
def Obligations.ResetMeetsInvariant : Prop :=
  State.reset.Inv ∧ ∀ p : Params, (State.resetWith p).Inv

/-- Every STEP keeps the invariant: memory in its form, the area below 0x200 zero, `I <= 0xFFF`, `PC <= 0x1000`, the
timers 0, a legal fault register that names the `PC` it stopped at. -/
def Obligations.StepKeepsInvariant : Prop :=
  ∀ s t : State, s.Inv → step s = .next t → t.Inv

/-- Every transaction keeps the invariant, so it holds in every reachable state. -/
def Obligations.TransactionsKeepInvariant : Prop :=
  ∀ (tr : Transaction) (s t : State), s.Inv → transact tr s = .next t → t.Inv

/-- Memories that read the same are the same data: the canonical form is canonical (the model's own form). -/
def Obligations.EqualReadsEqualMemories : Prop :=
  ∀ m m' : Memory, m.wf = true → m'.wf = true → (∀ a, m.byte a = m'.byte a) → m = m'

/-- RANGE_VIOLATION is raised by no rule (60_exceptions.md section 2). -/
def Obligations.RangeViolationNeverRaised : Prop :=
  ∀ s t : State, step s = .next t → t.fault.code = .rangeViolation → s.fault.code = .rangeViolation

/-! ## The host's interface -/

/-- The reset table (70_reset_and_hazards.md section 1, decisions D10, D11 and D21), from any state and for every
configuration, and the default initial framebuffer. -/
def Obligations.ResetTable : Prop :=
  (∀ s : State, ∃ t, transact .reset s = .next t ∧
    (∀ a, t.readByte a = 0#8) ∧ (∀ y, t.getV y = 0#8) ∧ t.i = 0#16 ∧ t.pc = 0x200#16 ∧ t.sp = 0#Config.spWidth ∧
    t.dt = 0#8 ∧ t.st = 0#8 ∧ t.fb = s.params.fbInit ∧
    t.fault = { code := .none, pc := 0#16, word := 0#16, addr := 0#16 } ∧ t.started = false ∧ t.params = s.params) ∧
  ∀ r c, State.reset.pixel r c = false

/-- The first STEP after RESET fetches from 0x200, the first two bytes the loader placed (70_reset_and_hazards.md
section 1, decision D15 for LOAD). -/
def Obligations.FirstFetchIsProgramStart : Prop :=
  ∀ (p : Params) (b0 b1 : Byte) (rest : List Byte), ∃ s w, transact (.load (b0 :: b1 :: rest)) (State.resetWith p) = .next s ∧
    s.fetches w ∧ w.toNat = b0.toNat * 256 + b1.toNat

/-- LOAD (70_reset_and_hazards.md section 2, decision D15): before the first STEP it copies the first 3584 bytes to
0x200 and on and changes nothing else; after it, it is refused. -/
def Obligations.LoadCopiesAndTruncates : Prop :=
  ∀ (s : State) (bytes : List Byte),
    (s.started = false → s.mem.wf = true → ∃ t, transact (.load bytes) s = .next t ∧
      (∀ a, t.readByte a = if 0x200 ≤ a ∧ a - 0x200 < min bytes.length 3584 then bytes.getD (a - 0x200) 0#8
        else s.readByte a) ∧
      t = { s with mem := t.mem }) ∧
    (s.started = true → transact (.load bytes) s = .refused .loadAfterStart)

/-- TIMER_TICK (60_exceptions.md section 8, decision D12, general knowledge G1): each timer down by one, 0 staying 0, in
any state, and nothing else. -/
def Obligations.TimerTickSaturates : Prop :=
  ∀ s : State, ∃ t, transact .timerTick s = .next t ∧
    t.dt.toNat = s.dt.toNat - 1 ∧ t.st.toNat = s.st.toNat - 1 ∧ t = { s with dt := t.dt, st := t.st }

/-- The buzzer query (45_step_and_interface.md section 4, decision D13, general knowledge G2): `ST /= 0`, and false in
every state of the invariant and after every transaction from one. -/
def Obligations.BuzzerStaysSilent : Prop :=
  (∀ s : State, s.buzzer = true ↔ s.st.toNat ≠ 0) ∧
  ∀ (tr : Transaction) (s t : State), s.Inv → transact tr s = .next t → s.buzzer = false ∧ t.buzzer = false

/-- The idle end of a run (45_step_and_interface.md section 6, decision D20): every STEP at a Jump to itself leaves the
whole state as it is but for `started`, returns `None`, and is idle again. -/
def Obligations.IdleRunStaysIdle : Prop :=
  ∀ s : State, s.idle → ∃ t, step s = .next t ∧ t = { s with started := true, result := .ok none } ∧ t.idle
end

