-- ==== Sys2Proof/Laws/State.lean ====
section
/-! SUPPORT. One lemma per field per update of State, and what a register or pixel reads after one was written. -/

namespace Sys2Proof.Machine

open Sys2Proof

variable (s : State)

/-! ## setV -/

@[simp] theorem setV_v (x : Nibble) (b : Byte) : (s.setV x b).v = s.v.set x.toNat b x.isLt := rfl
@[simp] theorem setV_i (x : Nibble) (b : Byte) : (s.setV x b).i = s.i := rfl
@[simp] theorem setV_pc (x : Nibble) (b : Byte) : (s.setV x b).pc = s.pc := rfl
@[simp] theorem setV_sp (x : Nibble) (b : Byte) : (s.setV x b).sp = s.sp := rfl
@[simp] theorem setV_stack (x : Nibble) (b : Byte) : (s.setV x b).stack = s.stack := rfl
@[simp] theorem setV_dt (x : Nibble) (b : Byte) : (s.setV x b).dt = s.dt := rfl
@[simp] theorem setV_st (x : Nibble) (b : Byte) : (s.setV x b).st = s.st := rfl
@[simp] theorem setV_mem (x : Nibble) (b : Byte) : (s.setV x b).mem = s.mem := rfl
@[simp] theorem setV_fb (x : Nibble) (b : Byte) : (s.setV x b).fb = s.fb := rfl
@[simp] theorem setV_fault (x : Nibble) (b : Byte) : (s.setV x b).fault = s.fault := rfl
@[simp] theorem setV_started (x : Nibble) (b : Byte) : (s.setV x b).started = s.started := rfl
@[simp] theorem setV_params (x : Nibble) (b : Byte) : (s.setV x b).params = s.params := rfl
@[simp] theorem setV_keys (x : Nibble) (b : Byte) : (s.setV x b).keys = s.keys := rfl
@[simp] theorem setV_result (x : Nibble) (b : Byte) : (s.setV x b).result = s.result := rfl

/-! ## setI -/

@[simp] theorem setI_v (a : Word) : (s.setI a).v = s.v := rfl
@[simp] theorem setI_i (a : Word) : (s.setI a).i = a := rfl
@[simp] theorem setI_pc (a : Word) : (s.setI a).pc = s.pc := rfl
@[simp] theorem setI_sp (a : Word) : (s.setI a).sp = s.sp := rfl
@[simp] theorem setI_stack (a : Word) : (s.setI a).stack = s.stack := rfl
@[simp] theorem setI_dt (a : Word) : (s.setI a).dt = s.dt := rfl
@[simp] theorem setI_st (a : Word) : (s.setI a).st = s.st := rfl
@[simp] theorem setI_mem (a : Word) : (s.setI a).mem = s.mem := rfl
@[simp] theorem setI_fb (a : Word) : (s.setI a).fb = s.fb := rfl
@[simp] theorem setI_fault (a : Word) : (s.setI a).fault = s.fault := rfl
@[simp] theorem setI_started (a : Word) : (s.setI a).started = s.started := rfl
@[simp] theorem setI_params (a : Word) : (s.setI a).params = s.params := rfl
@[simp] theorem setI_keys (a : Word) : (s.setI a).keys = s.keys := rfl
@[simp] theorem setI_result (a : Word) : (s.setI a).result = s.result := rfl

/-! ## setPc -/

@[simp] theorem setPc_v (a : Word) : (s.setPc a).v = s.v := rfl
@[simp] theorem setPc_i (a : Word) : (s.setPc a).i = s.i := rfl
@[simp] theorem setPc_pc (a : Word) : (s.setPc a).pc = a := rfl
@[simp] theorem setPc_sp (a : Word) : (s.setPc a).sp = s.sp := rfl
@[simp] theorem setPc_stack (a : Word) : (s.setPc a).stack = s.stack := rfl
@[simp] theorem setPc_dt (a : Word) : (s.setPc a).dt = s.dt := rfl
@[simp] theorem setPc_st (a : Word) : (s.setPc a).st = s.st := rfl
@[simp] theorem setPc_mem (a : Word) : (s.setPc a).mem = s.mem := rfl
@[simp] theorem setPc_fb (a : Word) : (s.setPc a).fb = s.fb := rfl
@[simp] theorem setPc_fault (a : Word) : (s.setPc a).fault = s.fault := rfl
@[simp] theorem setPc_started (a : Word) : (s.setPc a).started = s.started := rfl
@[simp] theorem setPc_params (a : Word) : (s.setPc a).params = s.params := rfl
@[simp] theorem setPc_keys (a : Word) : (s.setPc a).keys = s.keys := rfl
@[simp] theorem setPc_result (a : Word) : (s.setPc a).result = s.result := rfl

/-! ## setFb -/

@[simp] theorem setFb_v (f : Frame) : (s.setFb f).v = s.v := rfl
@[simp] theorem setFb_i (f : Frame) : (s.setFb f).i = s.i := rfl
@[simp] theorem setFb_pc (f : Frame) : (s.setFb f).pc = s.pc := rfl
@[simp] theorem setFb_sp (f : Frame) : (s.setFb f).sp = s.sp := rfl
@[simp] theorem setFb_stack (f : Frame) : (s.setFb f).stack = s.stack := rfl
@[simp] theorem setFb_dt (f : Frame) : (s.setFb f).dt = s.dt := rfl
@[simp] theorem setFb_st (f : Frame) : (s.setFb f).st = s.st := rfl
@[simp] theorem setFb_mem (f : Frame) : (s.setFb f).mem = s.mem := rfl
@[simp] theorem setFb_fb (f : Frame) : (s.setFb f).fb = f := rfl
@[simp] theorem setFb_fault (f : Frame) : (s.setFb f).fault = s.fault := rfl
@[simp] theorem setFb_started (f : Frame) : (s.setFb f).started = s.started := rfl
@[simp] theorem setFb_params (f : Frame) : (s.setFb f).params = s.params := rfl
@[simp] theorem setFb_keys (f : Frame) : (s.setFb f).keys = s.keys := rfl
@[simp] theorem setFb_result (f : Frame) : (s.setFb f).result = s.result := rfl

/-! ## takeFault -/

@[simp] theorem takeFault_v (c : FaultCode) (p w a : Word) : (takeFault c p w a s).v = s.v := rfl
@[simp] theorem takeFault_i (c : FaultCode) (p w a : Word) : (takeFault c p w a s).i = s.i := rfl
@[simp] theorem takeFault_pc (c : FaultCode) (p w a : Word) : (takeFault c p w a s).pc = p := rfl
@[simp] theorem takeFault_sp (c : FaultCode) (p w a : Word) : (takeFault c p w a s).sp = s.sp := rfl
@[simp] theorem takeFault_stack (c : FaultCode) (p w a : Word) : (takeFault c p w a s).stack = s.stack := rfl
@[simp] theorem takeFault_dt (c : FaultCode) (p w a : Word) : (takeFault c p w a s).dt = s.dt := rfl
@[simp] theorem takeFault_st (c : FaultCode) (p w a : Word) : (takeFault c p w a s).st = s.st := rfl
@[simp] theorem takeFault_mem (c : FaultCode) (p w a : Word) : (takeFault c p w a s).mem = s.mem := rfl
@[simp] theorem takeFault_fb (c : FaultCode) (p w a : Word) : (takeFault c p w a s).fb = s.fb := rfl
@[simp] theorem takeFault_fault (c : FaultCode) (p w a : Word) : (takeFault c p w a s).fault = { code := c, pc := p, word := w, addr := a } := rfl
@[simp] theorem takeFault_started (c : FaultCode) (p w a : Word) : (takeFault c p w a s).started = s.started := rfl
@[simp] theorem takeFault_params (c : FaultCode) (p w a : Word) : (takeFault c p w a s).params = s.params := rfl
@[simp] theorem takeFault_keys (c : FaultCode) (p w a : Word) : (takeFault c p w a s).keys = s.keys := rfl
@[simp] theorem takeFault_result (c : FaultCode) (p w a : Word) : (takeFault c p w a s).result = s.result := rfl

/-! ## markStarted -/

@[simp] theorem markStarted_v : (s.markStarted).v = s.v := rfl
@[simp] theorem markStarted_i : (s.markStarted).i = s.i := rfl
@[simp] theorem markStarted_pc : (s.markStarted).pc = s.pc := rfl
@[simp] theorem markStarted_sp : (s.markStarted).sp = s.sp := rfl
@[simp] theorem markStarted_stack : (s.markStarted).stack = s.stack := rfl
@[simp] theorem markStarted_dt : (s.markStarted).dt = s.dt := rfl
@[simp] theorem markStarted_st : (s.markStarted).st = s.st := rfl
@[simp] theorem markStarted_mem : (s.markStarted).mem = s.mem := rfl
@[simp] theorem markStarted_fb : (s.markStarted).fb = s.fb := rfl
@[simp] theorem markStarted_fault : (s.markStarted).fault = s.fault := rfl
@[simp] theorem markStarted_started : (s.markStarted).started = true := rfl
@[simp] theorem markStarted_params : (s.markStarted).params = s.params := rfl
@[simp] theorem markStarted_keys : (s.markStarted).keys = s.keys := rfl
@[simp] theorem markStarted_result : (s.markStarted).result = s.result := rfl

/-! ## setResult -/

@[simp] theorem setResult_v (r : StepResult) : (s.setResult r).v = s.v := rfl
@[simp] theorem setResult_i (r : StepResult) : (s.setResult r).i = s.i := rfl
@[simp] theorem setResult_pc (r : StepResult) : (s.setResult r).pc = s.pc := rfl
@[simp] theorem setResult_sp (r : StepResult) : (s.setResult r).sp = s.sp := rfl
@[simp] theorem setResult_stack (r : StepResult) : (s.setResult r).stack = s.stack := rfl
@[simp] theorem setResult_dt (r : StepResult) : (s.setResult r).dt = s.dt := rfl
@[simp] theorem setResult_st (r : StepResult) : (s.setResult r).st = s.st := rfl
@[simp] theorem setResult_mem (r : StepResult) : (s.setResult r).mem = s.mem := rfl
@[simp] theorem setResult_fb (r : StepResult) : (s.setResult r).fb = s.fb := rfl
@[simp] theorem setResult_fault (r : StepResult) : (s.setResult r).fault = s.fault := rfl
@[simp] theorem setResult_started (r : StepResult) : (s.setResult r).started = s.started := rfl
@[simp] theorem setResult_params (r : StepResult) : (s.setResult r).params = s.params := rfl
@[simp] theorem setResult_keys (r : StepResult) : (s.setResult r).keys = s.keys := rfl
@[simp] theorem setResult_result (r : StepResult) : (s.setResult r).result = r := rfl

/-! ## setKeys -/

@[simp] theorem setKeys_v (k : BitVec 16) : (s.setKeys k).v = s.v := rfl
@[simp] theorem setKeys_i (k : BitVec 16) : (s.setKeys k).i = s.i := rfl
@[simp] theorem setKeys_pc (k : BitVec 16) : (s.setKeys k).pc = s.pc := rfl
@[simp] theorem setKeys_sp (k : BitVec 16) : (s.setKeys k).sp = s.sp := rfl
@[simp] theorem setKeys_stack (k : BitVec 16) : (s.setKeys k).stack = s.stack := rfl
@[simp] theorem setKeys_dt (k : BitVec 16) : (s.setKeys k).dt = s.dt := rfl
@[simp] theorem setKeys_st (k : BitVec 16) : (s.setKeys k).st = s.st := rfl
@[simp] theorem setKeys_mem (k : BitVec 16) : (s.setKeys k).mem = s.mem := rfl
@[simp] theorem setKeys_fb (k : BitVec 16) : (s.setKeys k).fb = s.fb := rfl
@[simp] theorem setKeys_fault (k : BitVec 16) : (s.setKeys k).fault = s.fault := rfl
@[simp] theorem setKeys_started (k : BitVec 16) : (s.setKeys k).started = s.started := rfl
@[simp] theorem setKeys_params (k : BitVec 16) : (s.setKeys k).params = s.params := rfl
@[simp] theorem setKeys_keys (k : BitVec 16) : (s.setKeys k).keys = k := rfl
@[simp] theorem setKeys_result (k : BitVec 16) : (s.setKeys k).result = s.result := rfl

/-! ## timerTick -/

@[simp] theorem timerTick_v : (s.timerTick).v = s.v := rfl
@[simp] theorem timerTick_i : (s.timerTick).i = s.i := rfl
@[simp] theorem timerTick_pc : (s.timerTick).pc = s.pc := rfl
@[simp] theorem timerTick_sp : (s.timerTick).sp = s.sp := rfl
@[simp] theorem timerTick_stack : (s.timerTick).stack = s.stack := rfl
@[simp] theorem timerTick_dt : (s.timerTick).dt = tickDown s.dt := rfl
@[simp] theorem timerTick_st : (s.timerTick).st = tickDown s.st := rfl
@[simp] theorem timerTick_mem : (s.timerTick).mem = s.mem := rfl
@[simp] theorem timerTick_fb : (s.timerTick).fb = s.fb := rfl
@[simp] theorem timerTick_fault : (s.timerTick).fault = s.fault := rfl
@[simp] theorem timerTick_started : (s.timerTick).started = s.started := rfl
@[simp] theorem timerTick_params : (s.timerTick).params = s.params := rfl
@[simp] theorem timerTick_keys : (s.timerTick).keys = s.keys := rfl
@[simp] theorem timerTick_result : (s.timerTick).result = s.result := rfl

/-! ## loadImage -/

@[simp] theorem loadImage_v (bs : List Byte) : (s.loadImage bs).v = s.v := rfl
@[simp] theorem loadImage_i (bs : List Byte) : (s.loadImage bs).i = s.i := rfl
@[simp] theorem loadImage_pc (bs : List Byte) : (s.loadImage bs).pc = s.pc := rfl
@[simp] theorem loadImage_sp (bs : List Byte) : (s.loadImage bs).sp = s.sp := rfl
@[simp] theorem loadImage_stack (bs : List Byte) : (s.loadImage bs).stack = s.stack := rfl
@[simp] theorem loadImage_dt (bs : List Byte) : (s.loadImage bs).dt = s.dt := rfl
@[simp] theorem loadImage_st (bs : List Byte) : (s.loadImage bs).st = s.st := rfl
@[simp] theorem loadImage_mem (bs : List Byte) : (s.loadImage bs).mem = s.mem.writeBytes Config.programBase (bs.take Config.maxProgram) := rfl
@[simp] theorem loadImage_fb (bs : List Byte) : (s.loadImage bs).fb = s.fb := rfl
@[simp] theorem loadImage_fault (bs : List Byte) : (s.loadImage bs).fault = s.fault := rfl
@[simp] theorem loadImage_started (bs : List Byte) : (s.loadImage bs).started = s.started := rfl
@[simp] theorem loadImage_params (bs : List Byte) : (s.loadImage bs).params = s.params := rfl
@[simp] theorem loadImage_keys (bs : List Byte) : (s.loadImage bs).keys = s.keys := rfl
@[simp] theorem loadImage_result (bs : List Byte) : (s.loadImage bs).result = s.result := rfl

/-! ## placeTableWord -/

@[simp] theorem placeTableWord_v (n w : Nat) : (s.placeTableWord n w).v = s.v := rfl
@[simp] theorem placeTableWord_i (n w : Nat) : (s.placeTableWord n w).i = s.i := rfl
@[simp] theorem placeTableWord_pc (n w : Nat) : (s.placeTableWord n w).pc = s.pc := rfl
@[simp] theorem placeTableWord_sp (n w : Nat) : (s.placeTableWord n w).sp = s.sp := rfl
@[simp] theorem placeTableWord_stack (n w : Nat) : (s.placeTableWord n w).stack = s.stack := rfl
@[simp] theorem placeTableWord_dt (n w : Nat) : (s.placeTableWord n w).dt = s.dt := rfl
@[simp] theorem placeTableWord_st (n w : Nat) : (s.placeTableWord n w).st = s.st := rfl
@[simp] theorem placeTableWord_mem (n w : Nat) : (s.placeTableWord n w).mem = s.mem.writeBytes s.pc.toNat (bytesOfWord (BitVec.ofNat 16 (w % 2 ^ n))) := rfl
@[simp] theorem placeTableWord_fb (n w : Nat) : (s.placeTableWord n w).fb = s.fb := rfl
@[simp] theorem placeTableWord_fault (n w : Nat) : (s.placeTableWord n w).fault = s.fault := rfl
@[simp] theorem placeTableWord_started (n w : Nat) : (s.placeTableWord n w).started = s.started := rfl
@[simp] theorem placeTableWord_params (n w : Nat) : (s.placeTableWord n w).params = s.params := rfl
@[simp] theorem placeTableWord_keys (n w : Nat) : (s.placeTableWord n w).keys = s.keys := rfl
@[simp] theorem placeTableWord_result (n w : Nat) : (s.placeTableWord n w).result = s.result := rfl

/-! ## Reading back -/

/-- `V[y]` after `V[x] <- b`: the 16 registers are apart, and `VF` is one of them (10_state.md R21, R22). -/
theorem getV_setV (x y : Nibble) (b : Byte) : (s.setV x b).getV y = if y = x then b else s.getV y := by
  unfold State.getV State.setV
  rw [Vector.getElem_set]
  by_cases h : y = x
  · simp [h]
  · have : x.toNat ≠ y.toNat := fun e => h (BitVec.eq_of_toNat_eq e.symm)
    simp [h, this]

@[simp] theorem getV_setV_self (x : Nibble) (b : Byte) : (s.setV x b).getV x = b := by
  simp [getV_setV]

theorem getV_setV_other {x y : Nibble} (b : Byte) (h : y ≠ x) : (s.setV x b).getV y = s.getV y := by
  simp [getV_setV, h]

/-- Two states agree on every register exactly when their register arrays are equal. -/
theorem v_eq_of_getV {s t : State} (h : ∀ y, t.getV y = s.getV y) : t.v = s.v := by
  apply Vector.ext
  intro k hk
  have := h (BitVec.ofNat 4 k)
  simpa [State.getV, Nat.mod_eq_of_lt hk] using this

/-- `FB[r][c]` after `FB[r'][c'] <- b`. -/
theorem pixelAt_setPixelAt (f : Frame) (r r' : Fin 32) (c c' : Fin 64) (b : Bool) :
    pixelAt (setPixelAt f r c b) r' c' = if r' = r ∧ c' = c then b else pixelAt f r' c' := by
  simp only [pixelAt, setPixelAt, Fin.getElem_fin, Vector.getElem_set]
  by_cases hr : r' = r
  · subst hr
    have hlt := c'.isLt
    by_cases hc : c' = c
    · subst hc
      cases b <;> simp
    · have : ¬ (c' : Nat) = c := fun e => hc (Fin.ext e)
      cases b <;> simp [hc, this]
  · have : ¬ (r : Nat) = r' := fun e => hr (Fin.ext e.symm)
    simp [hr, this]

@[simp] theorem pixelAt_blankFrame (r : Fin 32) (c : Fin 64) : pixelAt blankFrame r c = false := by
  simp [pixelAt, blankFrame]

/-- Two framebuffers with the same pixels are equal. -/
theorem frame_ext {f g : Frame} (h : ∀ r c, pixelAt f r c = pixelAt g r c) : f = g := by
  apply Vector.ext
  intro r hr
  apply BitVec.eq_of_getLsbD_eq
  intro c hc
  exact h ⟨r, hr⟩ ⟨c, hc⟩

/-! ## Registers and memory under the updates that do not touch them -/

@[simp] theorem getV_setI (a : Word) (y : Nibble) : (s.setI a).getV y = s.getV y := rfl
@[simp] theorem getV_setPc (a : Word) (y : Nibble) : (s.setPc a).getV y = s.getV y := rfl
@[simp] theorem getV_setFb (f : Frame) (y : Nibble) : (s.setFb f).getV y = s.getV y := rfl
@[simp] theorem getV_takeFault (c : FaultCode) (p w a : Word) (y : Nibble) :
    (takeFault c p w a s).getV y = s.getV y := rfl
@[simp] theorem getV_markStarted (y : Nibble) : s.markStarted.getV y = s.getV y := rfl
@[simp] theorem getV_setResult (r : StepResult) (y : Nibble) : (s.setResult r).getV y = s.getV y := rfl
@[simp] theorem readByte_setV (x : Nibble) (b : Byte) (a : Nat) : (s.setV x b).readByte a = s.readByte a := rfl
@[simp] theorem readByte_setI (w : Word) (a : Nat) : (s.setI w).readByte a = s.readByte a := rfl
@[simp] theorem readByte_setPc (w : Word) (a : Nat) : (s.setPc w).readByte a = s.readByte a := rfl
@[simp] theorem readByte_setFb (f : Frame) (a : Nat) : (s.setFb f).readByte a = s.readByte a := rfl
@[simp] theorem readByte_takeFault (c : FaultCode) (p w x : Word) (a : Nat) :
    (takeFault c p w x s).readByte a = s.readByte a := rfl
@[simp] theorem readByte_markStarted (a : Nat) : s.markStarted.readByte a = s.readByte a := rfl
@[simp] theorem readByte_setResult (r : StepResult) (a : Nat) : (s.setResult r).readByte a = s.readByte a := rfl

/-! ## finish: the end of a STEP writes the result port and nothing else -/

@[simp] theorem finish_v (ins : Instr) (b : Frame) : (State.finish ins b s).v = s.v := by
  unfold State.finish; split <;> rfl

@[simp] theorem finish_i (ins : Instr) (b : Frame) : (State.finish ins b s).i = s.i := by
  unfold State.finish; split <;> rfl

@[simp] theorem finish_pc (ins : Instr) (b : Frame) : (State.finish ins b s).pc = s.pc := by
  unfold State.finish; split <;> rfl

@[simp] theorem finish_sp (ins : Instr) (b : Frame) : (State.finish ins b s).sp = s.sp := by
  unfold State.finish; split <;> rfl

@[simp] theorem finish_stack (ins : Instr) (b : Frame) : (State.finish ins b s).stack = s.stack := by
  unfold State.finish; split <;> rfl

@[simp] theorem finish_dt (ins : Instr) (b : Frame) : (State.finish ins b s).dt = s.dt := by
  unfold State.finish; split <;> rfl

@[simp] theorem finish_st (ins : Instr) (b : Frame) : (State.finish ins b s).st = s.st := by
  unfold State.finish; split <;> rfl

@[simp] theorem finish_mem (ins : Instr) (b : Frame) : (State.finish ins b s).mem = s.mem := by
  unfold State.finish; split <;> rfl

@[simp] theorem finish_fb (ins : Instr) (b : Frame) : (State.finish ins b s).fb = s.fb := by
  unfold State.finish; split <;> rfl

@[simp] theorem finish_fault (ins : Instr) (b : Frame) : (State.finish ins b s).fault = s.fault := by
  unfold State.finish; split <;> rfl

@[simp] theorem finish_started (ins : Instr) (b : Frame) : (State.finish ins b s).started = s.started := by
  unfold State.finish; split <;> rfl

@[simp] theorem finish_params (ins : Instr) (b : Frame) : (State.finish ins b s).params = s.params := by
  unfold State.finish; split <;> rfl

@[simp] theorem finish_keys (ins : Instr) (b : Frame) : (State.finish ins b s).keys = s.keys := by
  unfold State.finish; split <;> rfl

theorem finish_ok {ins : Instr} {b : Frame} (h : s.fault.code = .none) :
    State.finish ins b s = s.setResult (.ok (fbOut s.params.fbOutPolicy ins b s.fb)) := if_pos h

theorem finish_err {ins : Instr} {b : Frame} (h : s.fault.code ≠ .none) :
    State.finish ins b s = s.setResult (.err s.fault) := if_neg h

/-! ## The small computations as numbers -/

theorem zextDatum_toNat (a : Datum) : (zextDatum a).toNat = a.toNat := by
  have := a.isLt
  simp [zextDatum]
  omega

theorem addWrap_toNat (a b : Byte) : (addWrap a b).toNat = (a.toNat + b.toNat) % 256 := by
  have := a.isLt
  have := b.isLt
  simp [addWrap]

theorem tickDown_toNat (t : Byte) : (tickDown t).toNat = t.toNat - 1 := by
  unfold tickDown
  split
  · simp_all
  · rename_i h
    have hb := t.isLt
    have : t.toNat ≠ 0 := fun e => h (BitVec.eq_of_toNat_eq e)
    rw [BitVec.toNat_sub]
    simp
    omega

end Sys2Proof.Machine
end

