-- ==== Sys2Proof/Laws/Memory.lean ====
section
/-! SUPPORT. Memory: reads after writes, the canonical form, and the bounds check of 20_memory.md R42. -/

namespace Sys2Proof.Machine

open Sys2Proof

section Sparse

variable {α : Type} [DecidableEq α] {d : α} {hi : Nat}

/-- A list in the form from `lo` on holds nothing below `lo`. -/
theorem sparseRead_below {lo : Nat} {m : List (Nat × α)} (h : sparseWf d hi lo m = true) {a : Nat} (ha : a < lo) :
    sparseRead d m a = d := by
  induction m generalizing lo with
  | nil => rfl
  | cons e m ih =>
    obtain ⟨k, x⟩ := e
    simp only [sparseWf, Bool.and_eq_true, decide_eq_true_eq] at h
    obtain ⟨⟨⟨hk, -⟩, -⟩, hm⟩ := h
    simp only [sparseRead]
    rw [if_neg (by omega)]
    exact ih hm (by omega)

/-- The form from `lo` on is the form from any lower bound on. -/
theorem sparseWf_mono {lo lo' : Nat} {m : List (Nat × α)} (h : sparseWf d hi lo m = true) (hl : lo' ≤ lo) :
    sparseWf d hi lo' m = true := by
  cases m with
  | nil => rfl
  | cons e m =>
    obtain ⟨k, x⟩ := e
    simp only [sparseWf, Bool.and_eq_true, decide_eq_true_eq] at h ⊢
    exact ⟨⟨⟨by omega, h.1.1.2⟩, h.1.2⟩, h.2⟩

/-- Reading after a write, for a list in the form. -/
theorem sparseRead_put {lo : Nat} {m : List (Nat × α)} (h : sparseWf d hi lo m = true) (a b : Nat) (y : α) :
    sparseRead d (sparsePut d m a y) b = if b = a then y else sparseRead d m b := by
  induction m generalizing lo with
  | nil =>
    by_cases hy : y = d
    · simp [sparsePut, sparseRead, hy]
    · simp [sparsePut, sparseRead, hy]
  | cons e m ih =>
    obtain ⟨k, x⟩ := e
    have hw := h
    simp only [sparseWf, Bool.and_eq_true, decide_eq_true_eq] at h
    obtain ⟨-, hm⟩ := h
    rcases Nat.lt_trichotomy a k with hak | rfl | hak
    · have below : sparseRead d ((k, x) :: m) a = d := by
        rw [sparseRead, if_neg (by omega)]
        exact sparseRead_below hm (by omega)
      rw [sparsePut, if_pos hak]
      by_cases hy : y = d
      · rw [if_pos hy]
        by_cases hb : b = a
        · rw [if_pos hb, hb, below, hy]
        · rw [if_neg hb]
      · rw [if_neg hy, sparseRead]
    · rw [sparsePut, if_neg (Nat.lt_irrefl a), if_pos rfl]
      by_cases hb : b = a
      · subst hb
        by_cases hy : y = d
        · rw [if_pos hy, if_pos rfl, sparseRead_below hm (Nat.lt_succ_self b), hy]
        · rw [if_neg hy, if_pos rfl, sparseRead, if_pos rfl]
      · by_cases hy : y = d
        · rw [if_pos hy, if_neg hb, sparseRead, if_neg hb]
        · rw [if_neg hy, if_neg hb, sparseRead, if_neg hb, sparseRead, if_neg hb]
    · rw [sparsePut, if_neg (by omega), if_neg (by omega), sparseRead, ih hm, sparseRead]
      by_cases hb : b = k
      · rw [if_pos hb, if_neg (by omega), if_pos hb]
      · rw [if_neg hb, if_neg hb]

/-- A write keeps the form. -/
theorem sparsePut_wf {lo : Nat} {m : List (Nat × α)} (h : sparseWf d hi lo m = true) {a : Nat} (hl : lo ≤ a)
    (ha : a < hi) (y : α) : sparseWf d hi lo (sparsePut d m a y) = true := by
  induction m generalizing lo with
  | nil =>
    by_cases hy : y = d
    · simp [sparsePut, sparseWf, hy]
    · simp [sparsePut, sparseWf, hy, hl, ha]
  | cons e m ih =>
    obtain ⟨k, x⟩ := e
    have hw := h
    simp only [sparseWf, Bool.and_eq_true, decide_eq_true_eq] at h
    obtain ⟨⟨⟨hk, hkhi⟩, hx⟩, hm⟩ := h
    simp only [sparsePut]
    split_ifs with h1 h2 h3 h4
    · exact hw
    · simp only [sparseWf, Bool.and_eq_true, decide_eq_true_eq]
      exact ⟨⟨⟨hl, ha⟩, h2⟩, ⟨⟨by omega, hkhi⟩, hx⟩, hm⟩
    · exact sparseWf_mono hm (by omega)
    · subst h3
      simp only [sparseWf, Bool.and_eq_true, decide_eq_true_eq]
      exact ⟨⟨⟨hl, ha⟩, h4⟩, hm⟩
    · simp only [sparseWf, Bool.and_eq_true, decide_eq_true_eq]
      exact ⟨⟨⟨hk, hkhi⟩, hx⟩, ih hm (by omega)⟩

end Sparse

/-! ## Memory -/

/-- Reading a byte after a write of one byte; a write outside memory writes nothing. -/
theorem byte_write {m : Memory} (h : m.wf = true) (a b : Nat) (y : Byte) :
    (m.write a y).byte b = if b = a ∧ a < 4096 then y else m.byte b := by
  unfold Memory.write Memory.byte
  by_cases ha : a < Config.memSize
  · have ha' : a < 4096 := ha
    simp [ha, ha', sparseRead_put h]
  · have ha' : ¬ a < 4096 := ha
    simp [ha, ha']

/-- Every memory operation keeps the canonical form: one byte. -/
theorem write_wf {m : Memory} (h : m.wf = true) (a : Nat) (y : Byte) : (m.write a y).wf = true := by
  unfold Memory.write
  split
  · exact sparsePut_wf h (Nat.zero_le a) ‹_› y
  · exact h

/-- Every memory operation keeps the canonical form: consecutive bytes. -/
theorem writeBytes_wf {m : Memory} (h : m.wf = true) (a : Nat) (bs : List Byte) : (m.writeBytes a bs).wf = true := by
  induction bs generalizing m a with
  | nil => exact h
  | cons b bs ih => exact ih (write_wf h a b) (a + 1)

/-- Consecutive bytes leave every address outside them alone. -/
theorem byte_writeBytes_outside {m : Memory} (h : m.wf = true) (a : Nat) (bs : List Byte) {b : Nat}
    (hb : b < a ∨ a + bs.length ≤ b) : (m.writeBytes a bs).byte b = m.byte b := by
  induction bs generalizing m a with
  | nil => rfl
  | cons y bs ih =>
    simp only [List.length_cons] at hb
    rw [Memory.writeBytes, ih (write_wf h a y) (a + 1) (by omega), byte_write h, if_neg (by omega)]

/-- The memory of a reset machine has the form. -/
theorem resetWith_mem_wf (p : Params) : (State.resetWith p).mem.wf = true := rfl

/-! ## The bounds check -/

/-- A range that ends at or below 4095 has no address outside; otherwise the first one outside is the larger of the
range's start and 4096 (20_memory.md R42). -/
theorem firstOutside_eq (addr n : Nat) :
    firstOutside addr n = if n = 0 ∨ addr + n ≤ 4096 then none else some (max addr 4096) := by
  induction n with
  | zero => simp [firstOutside]
  | succ n ih =>
    have hs : firstOutside addr (n + 1)
        = (firstOutside addr n).or (if 4095 < addr + n then some (addr + n) else none) := by
      simp only [firstOutside, List.range_succ, List.map_append, List.find?_append, List.map_cons, List.map_nil,
        List.find?_cons, List.find?_nil]
      by_cases h : 4095 < addr + n <;> simp [h]
    rw [hs, ih]
    rcases Nat.eq_zero_or_pos n with hn | hn
    · subst hn
      by_cases h : addr ≤ 4095
      · rw [if_pos (Or.inl rfl), if_neg (by omega), if_pos (by omega)]
        rfl
      · rw [if_pos (Or.inl rfl), if_pos (by omega), if_neg (by omega)]
        simp; omega
    · by_cases h1 : addr + n ≤ 4096
      · rw [if_pos (Or.inr h1)]
        by_cases h2 : addr + n = 4096
        · rw [if_pos (by omega), if_neg (by omega)]
          simp; omega
        · rw [if_neg (by omega), if_pos (by omega)]
          rfl
      · rw [if_neg (by omega), if_pos (by omega), if_neg (by omega)]
        rfl

/-- A fetch inside memory reads the two bytes, high byte first. -/
theorem fetch_inside {s : State} (h : s.pc.toNat + 1 ≤ 4095) :
    s.fetch = .ok (wordOfBytes (s.readByte s.pc.toNat) (s.readByte (s.pc.toNat + 1))) := by
  have : firstOutside s.pc.toNat 2 = none := by rw [firstOutside_eq, if_pos (by omega)]
  simp [State.fetch, Memory.read2, this, State.readByte]

/-- A fetch that would leave memory reports the first address outside. -/
theorem fetch_outside {s : State} (h : 4095 < s.pc.toNat + 1) : s.fetch = .error (max s.pc.toNat 4096) := by
  have : firstOutside s.pc.toNat 2 = some (max s.pc.toNat 4096) := by rw [firstOutside_eq, if_neg (by omega)]
  simp [State.fetch, Memory.read2, this]

/-- A word from its bytes as a number. -/
theorem toNat_wordOfBytes (high low : Byte) : (wordOfBytes high low).toNat = high.toNat * 256 + low.toNat := by
  rw [wordOfBytes, BitVec.toNat_append, ← Nat.shiftLeft_add_eq_or_of_lt low.isLt, Nat.shiftLeft_eq]

/-- The word the next STEP fetches, in the terms of Safety.lean. -/
theorem fetch_of_fetches {s : State} {w : Word} (h : s.fetches w) : s.fetch = .ok w := by
  rw [fetch_inside h.2.1]
  congr 1
  apply BitVec.eq_of_toNat_eq
  rw [toNat_wordOfBytes, h.2.2]

/-- Consecutive bytes as they read back. -/
theorem byte_writeBytes_inside {m : Memory} (h : m.wf = true) (a : Nat) (bs : List Byte) {k : Nat} (hk : k < bs.length)
    (ha : a + k < 4096) : (m.writeBytes a bs).byte (a + k) = bs.getD k 0#8 := by
  induction bs generalizing m a k with
  | nil => simp at hk
  | cons b bs ih =>
    rw [Memory.writeBytes]
    cases k with
    | zero =>
      rw [Nat.add_zero, byte_writeBytes_outside (write_wf h a b) _ _ (.inl (by omega)), byte_write h]
      simp
      omega
    | succ k =>
      rw [show a + (k + 1) = (a + 1) + k by omega, ih (write_wf h a b) _ (by simpa using hk) (by omega)]
      simp

/-- What a fetch that stays in memory gives is the word the state fetches. -/
theorem fetches_of_fetch {s : State} (h : s.fault.code = .none) (hp : s.pc.toNat + 1 ≤ 4095) {w : Word}
    (hf : s.fetch = .ok w) : s.fetches w := by
  refine ⟨h, hp, ?_⟩
  rw [fetch_inside hp] at hf
  injection hf with hf
  rw [← hf, toNat_wordOfBytes]

end Sys2Proof.Machine
end

