-- ==== Sys2Proof/Laws/Draw.lean ====
section
/-! SUPPORT. Draw's loops (41_draw.md R100): what they leave in every pixel and in `VF`. The loops are one pass over a
list of pixels at distinct positions (R108). -/

namespace Sys2Proof.Machine

open Sys2Proof

/-- One sprite pixel: its row, its column, its bit. -/
structure Dot where
  r : Fin 32
  c : Fin 64
  bit : Bool

/-- Plotting a list of dots, first to last. -/
def plotDots (dots : List Dot) (cv : Canvas) : Canvas := dots.foldl (fun cv d => plotPixel d.r d.c d.bit cv) cv

/-- The dots of one sprite row. -/
def rowDots (r : Fin 32) (sx : Nat) (row : Byte) : List Dot :=
  (List.range 8).map (fun j => { r := r, c := wrapCol (sx + j), bit := spritePixel row j })

/-- The dots of a sprite. -/
def spriteDots (sx sy : Nat) (rowAt : Nat → Byte) (n : Nat) : List Dot :=
  (List.range n).flatMap (fun i => rowDots (wrapRow (sy + i)) sx (rowAt i))

theorem plotRow_eq_plotDots (r : Fin 32) (sx : Nat) (row : Byte) (cv : Canvas) :
    plotRow r sx row cv = plotDots (rowDots r sx row) cv := by
  rw [plotDots, rowDots, List.foldl_map]
  rfl

theorem plotSprite_eq_plotDots (sx sy : Nat) (rowAt : Nat → Byte) (n : Nat) (cv : Canvas) :
    plotSprite sx sy rowAt n cv = plotDots (spriteDots sx sy rowAt n) cv := by
  simp only [plotSprite, plotDots, spriteDots, List.foldl_flatMap, plotRow_eq_plotDots]

/-- Two dots at different positions. -/
def Apart (d e : Dot) : Prop := ¬ (d.r = e.r ∧ d.c = e.c)

/-- A pixel no dot lands on stays (41_draw.md R104). -/
theorem pixel_plotDots_outside (dots : List Dot) (cv : Canvas) (r : Fin 32) (c : Fin 64)
    (h : ∀ d ∈ dots, ¬ (r = d.r ∧ c = d.c)) : pixelAt (plotDots dots cv).fb r c = pixelAt cv.fb r c := by
  induction dots generalizing cv with
  | nil => rfl
  | cons d dots ih =>
    have hd := h d (by simp)
    have ht := ih (plotPixel d.r d.c d.bit cv) (fun e he => h e (by simp [he]))
    rw [show plotDots (d :: dots) cv = plotDots dots (plotPixel d.r d.c d.bit cv) from rfl, ht]
    simp only [plotPixel]
    rw [pixelAt_setPixelAt, if_neg hd]

/-- A pixel a dot lands on is XORed with the dot, when the dots are apart (41_draw.md R104, R108). -/
theorem pixel_plotDots_on (dots : List Dot) (cv : Canvas) (hp : dots.Pairwise Apart) {d : Dot} (hd : d ∈ dots) :
    pixelAt (plotDots dots cv).fb d.r d.c = (pixelAt cv.fb d.r d.c ^^ d.bit) := by
  induction dots generalizing cv with
  | nil => simp at hd
  | cons e dots ih =>
    obtain ⟨he, hp⟩ := List.pairwise_cons.mp hp
    rw [show plotDots (e :: dots) cv = plotDots dots (plotPixel e.r e.c e.bit cv) from rfl]
    rcases List.mem_cons.mp hd with rfl | hd
    · rw [pixel_plotDots_outside dots _ d.r d.c (fun f hf => he f hf)]
      simp only [plotPixel]
      rw [pixelAt_setPixelAt, if_pos ⟨rfl, rfl⟩]
    · rw [ih _ hp hd]
      have := he d hd
      simp only [plotPixel]
      rw [pixelAt_setPixelAt, if_neg (fun h => this ⟨h.1.symm, h.2.symm⟩)]

/-- `VF` after the dots: 1 when a lit dot met a lit pixel, else as it was (41_draw.md R105, R108). -/
theorem vf_plotDots (dots : List Dot) (cv : Canvas) (hp : dots.Pairwise Apart) :
    ((∃ d ∈ dots, d.bit = true ∧ pixelAt cv.fb d.r d.c = true) → (plotDots dots cv).vf = 1#8) ∧
    ((¬ ∃ d ∈ dots, d.bit = true ∧ pixelAt cv.fb d.r d.c = true) → (plotDots dots cv).vf = cv.vf) := by
  induction dots generalizing cv with
  | nil => simp [plotDots]
  | cons e dots ih =>
    obtain ⟨he, hp⟩ := List.pairwise_cons.mp hp
    have keep : ∀ d ∈ dots, pixelAt (plotPixel e.r e.c e.bit cv).fb d.r d.c = pixelAt cv.fb d.r d.c := by
      intro d hd
      have := he d hd
      simp only [plotPixel]
      rw [pixelAt_setPixelAt, if_neg (fun h => this ⟨h.1.symm, h.2.symm⟩)]
    have same : (∃ d ∈ dots, d.bit = true ∧ pixelAt (plotPixel e.r e.c e.bit cv).fb d.r d.c = true)
        ↔ ∃ d ∈ dots, d.bit = true ∧ pixelAt cv.fb d.r d.c = true := by
      constructor
      · rintro ⟨d, hd, hb, hx⟩
        exact ⟨d, hd, hb, by rw [← keep d hd]; exact hx⟩
      · rintro ⟨d, hd, hb, hx⟩
        exact ⟨d, hd, hb, by rw [keep d hd]; exact hx⟩
    obtain ⟨ih1, ih2⟩ := ih (plotPixel e.r e.c e.bit cv) hp
    rw [same] at ih1 ih2
    rw [show plotDots (e :: dots) cv = plotDots dots (plotPixel e.r e.c e.bit cv) from rfl]
    by_cases hrest : ∃ d ∈ dots, d.bit = true ∧ pixelAt cv.fb d.r d.c = true
    · refine ⟨fun _ => ih1 hrest, fun h => absurd ?_ h⟩
      obtain ⟨d, hd, hx⟩ := hrest
      exact ⟨d, by simp [hd], hx⟩
    · rw [ih2 hrest]
      simp only [plotPixel, raiseOnErase]
      constructor
      · rintro ⟨d, hd, hb, hx⟩
        rcases List.mem_cons.mp hd with rfl | hd
        · simp [hb, hx]
        · exact absurd ⟨d, hd, hb, hx⟩ hrest
      · intro h
        have hn : ¬ (e.bit = true ∧ pixelAt cv.fb e.r e.c = true) := fun hx => h ⟨e, by simp, hx⟩
        simp only [Bool.and_eq_true]
        rw [if_neg hn]

theorem mem_spriteDots {sx sy : Nat} {rowAt : Nat → Byte} {n : Nat} {d : Dot} :
    d ∈ spriteDots sx sy rowAt n ↔
      ∃ i j, i < n ∧ j < 8 ∧
        d = { r := wrapRow (sy + i), c := wrapCol (sx + j), bit := spritePixel (rowAt i) j } := by
  simp only [spriteDots, rowDots, List.mem_flatMap, List.mem_map, List.mem_range]
  constructor
  · rintro ⟨i, hi, j, hj, rfl⟩
    exact ⟨i, j, hi, hj, rfl⟩
  · rintro ⟨i, j, hi, hj, rfl⟩
    exact ⟨i, hi, j, hj, rfl⟩

/-- The dots of a sprite of at most 32 rows are apart: "no pixel is visited twice" (41_draw.md R108). -/
theorem spriteDots_apart (sx sy : Nat) (rowAt : Nat → Byte) {n : Nat} (hn : n ≤ 32) :
    (spriteDots sx sy rowAt n).Pairwise Apart := by
  rw [spriteDots, List.pairwise_flatMap]
  constructor
  · intro i _
    rw [rowDots, List.pairwise_map]
    apply List.Pairwise.imp_of_mem (R := fun a b => a < b) _ List.pairwise_lt_range
    intro a b ha hb hab
    simp only [List.mem_range] at ha hb
    simp only [Apart, wrapCol, Fin.mk.injEq, not_and]
    omega
  · apply List.Pairwise.imp_of_mem (R := fun a b => a < b) _ List.pairwise_lt_range
    intro a b ha hb hab d hd e he
    simp only [List.mem_range] at ha hb
    simp only [rowDots, List.mem_map, List.mem_range] at hd he
    obtain ⟨_, _, rfl⟩ := hd
    obtain ⟨_, _, rfl⟩ := he
    simp only [Apart, wrapRow, Fin.mk.injEq, not_and]
    omega

end Sys2Proof.Machine
end

