-- ==== Sys2Proof/Laws/Encoding.lean ====
section
/-! SUPPORT. Encodings: well-formedness holds by the operand types, words and bytes, and which row a word belongs to. -/

namespace Sys2Proof

/-- Every instruction is well-formed: its operands have their fields' widths (30_encoding.md R64). -/
theorem instr_wellFormed (i : Instr) : i.wellFormed = true := by
  cases i <;>
    simp [Instr.wellFormed, Instr.variant, Instr.operands, Variant.fieldWidths, operandsFit, fitsField] <;> omega

/-- A line the check accepts is an instruction, and that instruction's line is the line it came from. -/
theorem toInstr_toLine (i : Instr) : i.toLine.toInstr = some i := by
  have h : i.toLine.wellFormed = true := instr_wellFormed i
  unfold AsmLine.toInstr
  rw [if_pos h]
  cases i <;> simp [Instr.toLine, Instr.variant, Instr.operands]

/-- A line is an instruction exactly when the check accepts it (R61: the constructor fails on a value out of range). -/
theorem toInstr_isSome_iff (l : AsmLine) : l.toInstr.isSome = true ↔ l.wellFormed = true := by
  obtain ⟨v, os⟩ := l
  unfold AsmLine.toInstr
  constructor
  · intro h
    by_contra hw
    simp [hw] at h
  · intro h
    rw [if_pos h]
    unfold AsmLine.wellFormed at h
    rcases v <;> rcases os with _ | ⟨a, _ | ⟨b, _ | ⟨c, _ | ⟨d, ds⟩⟩⟩⟩ <;>
      simp_all [Variant.fieldWidths, operandsFit]

/-- A word is its own two bytes, high byte first (20_memory.md R44). -/
theorem decodeBytes_bytesOfWord (w : Word) (rest : List Byte) :
    decodeBytes (bytesOfWord w ++ rest)
      = match decodeWord w with
        | .ok i => .ok (i, rest)
        | .error r => .error r := by
  have : wordOfBytes (w.extractLsb' 8 8) (w.extractLsb' 0 8) = w := by
    rw [wordOfBytes]
    ext k hk
    simp only [BitVec.getElem_append, BitVec.getElem_extractLsb']
    split
    · simp [BitVec.getLsbD_eq_getElem, hk]
    · rw [Nat.add_sub_cancel' (by omega)]
      simp [BitVec.getLsbD_eq_getElem, hk]
  cases h : decodeWord w <;> simp [bytesOfWord, decodeBytes, this, h]

/-- The row of an instruction's variant. -/
def rowOf : Variant → Row
  | .nop => ⟨.nop, 0x0000#16, 0xFFFF#16⟩
  | .cls => ⟨.cls, 0x00E0#16, 0xFFFF#16⟩
  | .ret => ⟨.ret, 0x00EE#16, 0xFFFF#16⟩
  | .jp => ⟨.jp, 0x1000#16, 0xF000#16⟩
  | .ldVxKk => ⟨.ldVxKk, 0x6000#16, 0xF000#16⟩
  | .addVxKk => ⟨.addVxKk, 0x7000#16, 0xF000#16⟩
  | .ldINnn => ⟨.ldINnn, 0xA000#16, 0xF000#16⟩
  | .drw => ⟨.drw, 0xD000#16, 0xF000#16⟩

theorem rowOf_mem (v : Variant) : rowOf v ∈ opcodeTable := by cases v <;> decide

theorem rowOf_variant (v : Variant) : (rowOf v).variant = v := by cases v <;> rfl

/-! ## Fields as numbers -/

theorem opOf_toNat (w : Word) : (opOf w).toNat = w.toNat / 4096 := by
  have := w.isLt
  simp [opOf, BitVec.extractLsb'_toNat, Nat.shiftRight_eq_div_pow]
  omega

theorem xOf_eq (w : Word) : xOf w = BitVec.ofNat 4 (w.toNat / 256 % 16) := by
  apply BitVec.eq_of_toNat_eq
  simp [xOf, BitVec.extractLsb'_toNat, Nat.shiftRight_eq_div_pow]

theorem yOf_eq (w : Word) : yOf w = BitVec.ofNat 4 (w.toNat / 16 % 16) := by
  apply BitVec.eq_of_toNat_eq
  simp [yOf, BitVec.extractLsb'_toNat, Nat.shiftRight_eq_div_pow]

theorem nOf_eq (w : Word) : nOf w = BitVec.ofNat 4 (w.toNat % 16) := by
  apply BitVec.eq_of_toNat_eq
  simp [nOf, BitVec.extractLsb'_toNat]

theorem kkOf_eq (w : Word) : kkOf w = BitVec.ofNat 8 (w.toNat % 256) := by
  apply BitVec.eq_of_toNat_eq
  simp [kkOf, BitVec.extractLsb'_toNat]

/-- A field put in front of another, as numbers. -/
theorem append_toNat {m k : Nat} (a : BitVec m) (b : BitVec k) : (a ++ b).toNat = a.toNat * 2 ^ k + b.toNat := by
  rw [BitVec.toNat_append, ← Nat.shiftLeft_add_eq_or_of_lt b.isLt, Nat.shiftLeft_eq]

theorem datum_toNat (a b c : Nibble) : (datum a b c).toNat = a.toNat * 256 + b.toNat * 16 + c.toNat := by
  rw [datum, append_toNat, append_toNat]
  omega

theorem nnnOf_eq (w : Word) : nnnOf w = BitVec.ofNat 12 (w.toNat % 4096) := by
  apply BitVec.eq_of_toNat_eq
  rw [nnnOf, datum_toNat, xOf_eq, yOf_eq, nOf_eq]
  simp
  omega

end Sys2Proof
end

