-- ==== Sys2Proof/Laws/PerInstr.lean ====
section
/-! SUPPORT. Per-instruction lemmas. The family RowMatch: an instruction's word belongs to its row of
spec/opcode_table.json, `word & mask = match`. -/

namespace Sys2Proof.Laws

open Sys2Proof

/-- The instruction's word matches its row. -/
def RowMatch.Statement (i : Instr) : Prop := (rowOf i.variant).matchesWord (encode i) = true

/-- Masking a word with 0xF000 keeps the primary opcode alone. -/
theorem and_highNibble (w : Word) : w &&& 0xF000#16 = opOf w ++ 0#12 := by
  apply BitVec.eq_of_getLsbD_eq
  intro k hk
  simp only [opOf, BitVec.getLsbD_and, BitVec.getLsbD_append, BitVec.getLsbD_extractLsb']
  interval_cases k <;> simp

theorem opOf_nnn (op : Nibble) (nnn : Datum) : opOf (op ++ nnn) = op := by
  apply BitVec.eq_of_getLsbD_eq
  intro k hk
  simp only [opOf, BitVec.getLsbD_append, BitVec.getLsbD_extractLsb']
  interval_cases k <;> simp

theorem opOf_xkk (op x : Nibble) (kk : Byte) : opOf (op ++ x ++ kk) = op := by
  apply BitVec.eq_of_getLsbD_eq
  intro k hk
  simp only [opOf, BitVec.getLsbD_append, BitVec.getLsbD_extractLsb']
  interval_cases k <;> simp

theorem opOf_xyn (op x y n : Nibble) : opOf (op ++ x ++ y ++ n) = op := by
  apply BitVec.eq_of_getLsbD_eq
  intro k hk
  simp only [opOf, BitVec.getLsbD_append, BitVec.getLsbD_extractLsb']
  interval_cases k <;> simp

/-- A word whose primary opcode is that of a row with mask 0xF000 matches the row. -/
theorem matchesWord_of_opOf (v : Variant) (op : Nibble) (w : Word) (h : opOf w = op) :
    (Row.mk v (op ++ 0#12) 0xF000#16).matchesWord w = true := by
  simp only [Row.matchesWord, beq_iff_eq]
  rw [and_highNibble, h]

theorem RowMatch.nop : RowMatch.Statement .nop := rfl

theorem RowMatch.cls : RowMatch.Statement .cls := rfl

theorem RowMatch.ret : RowMatch.Statement .ret := rfl

theorem RowMatch.jp (nnn : Datum) : RowMatch.Statement (.jp nnn) := matchesWord_of_opOf .jp 0x1#4 _ (opOf_nnn _ _)

theorem RowMatch.ldVxKk (x : Nibble) (kk : Byte) : RowMatch.Statement (.ldVxKk x kk) :=
  matchesWord_of_opOf .ldVxKk 0x6#4 _ (opOf_xkk _ _ _)

theorem RowMatch.addVxKk (x : Nibble) (kk : Byte) : RowMatch.Statement (.addVxKk x kk) :=
  matchesWord_of_opOf .addVxKk 0x7#4 _ (opOf_xkk _ _ _)

theorem RowMatch.ldINnn (nnn : Datum) : RowMatch.Statement (.ldINnn nnn) :=
  matchesWord_of_opOf .ldINnn 0xA#4 _ (opOf_nnn _ _)

theorem RowMatch.drw (x y n : Nibble) : RowMatch.Statement (.drw x y n) :=
  matchesWord_of_opOf .drw 0xD#4 _ (opOf_xyn _ _ _ _)

end Sys2Proof.Laws
end

