-- ==== Sys2Proof/Laws/Exec.lean ====
section
/-! SUPPORT. What an instruction rule can do: it completes, or it raises a fault before it has changed anything. -/

namespace Sys2Proof.Machine

open Sys2Proof

/-- The first sprite address outside memory (41_draw.md R103). -/
theorem spriteOutside_eq (s : State) (n : Nibble) :
    spriteOutside s n = if n = 0#4 ∨ s.i.toNat + n.toNat ≤ 4096 then none else some (max s.i.toNat 4096) := by
  have : n.toNat = 0 ↔ n = 0#4 := ⟨fun h => BitVec.eq_of_toNat_eq h, fun h => by rw [h]; rfl⟩
  simp only [spriteOutside, firstOutside_eq, this]

/-! ## Draw, case by case (41_draw.md R100) -/

theorem execDrw_zero_fault {s : State} (x y : Nibble) (h : s.params.drawN0Policy = .fault) :
    execDrw x y 0#4 s = .next (raiseFault .unimplemented (.drw x y 0#4) 0x0000#16 s) := by
  simp [execDrw, h]

theorem execDrw_zero_empty {s : State} (x y : Nibble) (h : s.params.drawN0Policy = .empty) :
    execDrw x y 0#4 s = .next (clearFlag s) := by
  simp [execDrw, h]

theorem execDrw_outside {s : State} (x y : Nibble) {n : Nibble} (hn : n ≠ 0#4) (h : 4096 < s.i.toNat + n.toNat) :
    execDrw x y n s
      = .next (raiseFault .memoryBounds (.drw x y n) (BitVec.ofNat 16 (max s.i.toNat 4096)) s) := by
  rw [execDrw, if_neg hn, spriteOutside_eq, if_neg (by rintro (h' | h') <;> [exact hn h'; omega])]

theorem execDrw_inside {s : State} (x y : Nibble) {n : Nibble} (hn : n ≠ 0#4) (h : s.i.toNat + n.toNat ≤ 4096) :
    execDrw x y n s = .next (drawSprite x y n s) := by
  rw [execDrw, if_neg hn, spriteOutside_eq, if_pos (Or.inr h)]

/-- Draw has these four cases and no other. -/
theorem execDrw_cases (x y n : Nibble) (s : State) :
    (n = 0#4 ∧ s.params.drawN0Policy = .fault ∧
      execDrw x y n s = .next (raiseFault .unimplemented (.drw x y n) 0x0000#16 s)) ∨
    (n = 0#4 ∧ s.params.drawN0Policy = .empty ∧ execDrw x y n s = .next (clearFlag s)) ∨
    (n ≠ 0#4 ∧ 4096 < s.i.toNat + n.toNat ∧
      execDrw x y n s
        = .next (raiseFault .memoryBounds (.drw x y n) (BitVec.ofNat 16 (max s.i.toNat 4096)) s)) ∨
    (n ≠ 0#4 ∧ s.i.toNat + n.toNat ≤ 4096 ∧ execDrw x y n s = .next (drawSprite x y n s)) := by
  by_cases hn : n = 0#4
  · subst hn
    cases hp : s.params.drawN0Policy
    · exact .inl ⟨rfl, rfl, execDrw_zero_fault x y hp⟩
    · exact .inr (.inl ⟨rfl, rfl, execDrw_zero_empty x y hp⟩)
  · by_cases h : s.i.toNat + n.toNat ≤ 4096
    · exact .inr (.inr (.inr ⟨hn, h, execDrw_inside x y hn h⟩))
    · exact .inr (.inr (.inl ⟨hn, by omega, execDrw_outside x y hn (by omega)⟩))

/-- What an instruction does when it raises no fault: the fields it may write are `V`, `I`, `PC` and `FB`. -/
structure Completes (s t : State) : Prop where
  reserved : SameReserved s t
  mem : t.mem = s.mem
  fault : t.fault = s.fault

theorem completes_setV (s : State) (x : Nibble) (b : Byte) : Completes s (s.setV x b) :=
  ⟨⟨rfl, rfl, rfl, rfl, rfl, rfl, rfl, rfl⟩, rfl, rfl⟩

/-- Which faults an instruction rule can raise, and what it then records (60_exceptions.md R141). -/
def CanRaise (i : Instr) (s : State) (code : FaultCode) (addr : Word) : Prop :=
  (i = .ret ∧ code = .unimplemented ∧ addr = 0#16) ∨
  (∃ x y, i = .drw x y 0#4 ∧ s.params.drawN0Policy = .fault ∧ code = .unimplemented ∧ addr = 0#16) ∨
  (∃ x y n, i = .drw x y n ∧ n ≠ 0#4 ∧ 4096 < s.i.toNat + n.toNat ∧ code = .memoryBounds ∧
    addr = BitVec.ofNat 16 (max s.i.toNat 4096))

/-- SAID ONCE: every instruction answers a next state, in which it either completed or took a fault. -/
theorem exec_cases (i : Instr) (s : State) :
    ∃ t, exec i s = .next t ∧
      (Completes s t ∨ ∃ code addr, CanRaise i s code addr ∧ t = raiseFault code i addr s) := by
  have setV := completes_setV s
  cases i with
  | nop => exact ⟨_, rfl, .inl ⟨⟨rfl, rfl, rfl, rfl, rfl, rfl, rfl, rfl⟩, rfl, rfl⟩⟩
  | cls => exact ⟨_, rfl, .inl ⟨⟨rfl, rfl, rfl, rfl, rfl, rfl, rfl, rfl⟩, rfl, rfl⟩⟩
  | ret => exact ⟨_, rfl, .inr ⟨_, _, .inl ⟨rfl, rfl, rfl⟩, rfl⟩⟩
  | jp nnn => exact ⟨_, rfl, .inl ⟨⟨rfl, rfl, rfl, rfl, rfl, rfl, rfl, rfl⟩, rfl, rfl⟩⟩
  | ldVxKk x kk => exact ⟨_, rfl, .inl (setV _ _)⟩
  | addVxKk x kk => exact ⟨_, rfl, .inl (setV _ _)⟩
  | ldINnn nnn => exact ⟨_, rfl, .inl ⟨⟨rfl, rfl, rfl, rfl, rfl, rfl, rfl, rfl⟩, rfl, rfl⟩⟩
  | drw x y n =>
    rcases execDrw_cases x y n s with ⟨rfl, hp, h⟩ | ⟨rfl, -, h⟩ | ⟨hn, ho, h⟩ | ⟨-, -, h⟩
    · exact ⟨_, h, .inr ⟨_, _, .inr (.inl ⟨x, y, rfl, hp, rfl, rfl⟩), rfl⟩⟩
    · exact ⟨_, h, .inl (setV _ _)⟩
    · exact ⟨_, h, .inr ⟨_, _, .inr (.inr ⟨x, y, n, rfl, hn, ho, rfl, rfl⟩), rfl⟩⟩
    · exact ⟨_, h, .inl ⟨⟨rfl, rfl, rfl, rfl, rfl, rfl, rfl, rfl⟩, rfl, rfl⟩⟩

/-- Inside a STEP a fault raised by an instruction records the address the STEP fetched from (00_scope.md R11). -/
theorem fetchedFrom_advance (s : State) : s.markStarted.advance.fetchedFrom = s.pc := by
  simp [State.fetchedFrom, State.advance]

/-! ## The drawing itself, as a list of dots -/

/-- The start coordinates are those Safety.lean tells (41_draw.md R101, R102). -/
theorem drawOrigin_of_startsAt {s : State} {x y : Nibble} {sx sy : Nat} (h : StartsAt s x y sx sy) :
    drawOrigin x y s = (sx, sy) := by
  unfold StartsAt at h
  unfold drawOrigin
  cases hp : s.params.drawCoordsFirst
  · rw [hp] at h
    simp only [Bool.false_eq_true, if_false] at h ⊢
    obtain ⟨rfl, rfl⟩ := h
    simp only [startColumn, startRow, clearFlag, flagReg, getV_setV]
    congr 1 <;> split <;> simp
  · rw [hp] at h
    simp only [if_true] at h ⊢
    obtain ⟨rfl, rfl⟩ := h
    rfl

theorem drawSprite_fb (x y n : Nibble) (s : State) :
    (drawSprite x y n s).fb
      = (plotDots (spriteDots (drawOrigin x y s).1 (drawOrigin x y s).2 (spriteRow s) n.toNat)
          { fb := s.fb, vf := 0#8 }).fb := by
  simp only [drawSprite, setV_fb, setFb_fb, ← plotSprite_eq_plotDots, clearFlag, getV_setV_self]

theorem drawSprite_vf (x y n : Nibble) (s : State) :
    (drawSprite x y n s).getV 15#4
      = (plotDots (spriteDots (drawOrigin x y s).1 (drawOrigin x y s).2 (spriteRow s) n.toNat)
          { fb := s.fb, vf := 0#8 }).vf := by
  simp only [drawSprite, flagReg, getV_setV_self, ← plotSprite_eq_plotDots, clearFlag]

end Sys2Proof.Machine
end

