-- ==== Sys2Proof/Laws/Step.lean ====
section
/-! SUPPORT. What one STEP can do, said once (45_step_and_interface.md R120). -/

namespace Sys2Proof.Machine

open Sys2Proof

/-- A STEP of a faulted core only reports (60_exceptions.md R147). -/
theorem step_faulted {s : State} (h : s.fault.code ≠ .none) : step s = .next s.reportFault := by
  simp [step, runStep, h]

/-- A STEP whose fetch leaves memory. -/
theorem step_fetchFault {s : State} (h : s.fault.code = .none) {a : Nat} (hf : s.fetch = .error a) :
    step s = .next (s.fetchFault a) := by
  simp [step, runStep, h, hf]

/-- A STEP whose word is no instruction. -/
theorem step_decodeFault {s : State} (h : s.fault.code = .none) {w : Word} (hf : s.fetch = .ok w) {r : DecodeReject}
    (hd : decodeWord w = .error r) : step s = .next (s.decodeFault w) := by
  simp [step, runStep, h, hf, hd]

/-- A STEP whose word is an instruction. -/
theorem step_executes {s t : State} (h : s.fault.code = .none) {w : Word} (hf : s.fetch = .ok w) {i : Instr}
    (hd : decodeWord w = .ok i) (he : exec i s.markStarted.advance = .next t) :
    step s = .next (State.finish i s.fb t) := by
  simp [step, runStep, h, hf, hd, he]

/-- SAID ONCE: a STEP answers a next state, in one of these four ways. -/
theorem step_cases (s : State) :
    (s.fault.code ≠ .none ∧ step s = .next s.reportFault) ∨
    (s.fault.code = .none ∧ 4095 < s.pc.toNat + 1 ∧ s.fetch = .error (max s.pc.toNat 4096) ∧
      step s = .next (s.fetchFault (max s.pc.toNat 4096))) ∨
    (∃ w r, s.fault.code = .none ∧ s.pc.toNat + 1 ≤ 4095 ∧ s.fetch = .ok w ∧ decodeWord w = .error r ∧
      step s = .next (s.decodeFault w)) ∨
    (∃ w i t, s.fault.code = .none ∧ s.pc.toNat + 1 ≤ 4095 ∧ s.fetch = .ok w ∧ decodeWord w = .ok i ∧
      exec i s.markStarted.advance = .next t ∧
      (Completes s.markStarted.advance t ∨
        ∃ code addr, CanRaise i s code addr ∧ t = takeFault code s.pc (encode i) addr s.markStarted.advance) ∧
      step s = .next (State.finish i s.fb t)) := by
  by_cases h : s.fault.code = .none
  · by_cases hp : s.pc.toNat + 1 ≤ 4095
    · obtain ⟨w, hf⟩ : ∃ w, s.fetch = .ok w := ⟨_, fetch_inside hp⟩
      cases hd : decodeWord w with
      | error r => exact .inr (.inr (.inl ⟨w, r, h, hp, hf, hd, step_decodeFault h hf hd⟩))
      | ok i =>
        obtain ⟨t, he, ht⟩ := exec_cases i s.markStarted.advance
        refine .inr (.inr (.inr ⟨w, i, t, h, hp, hf, hd, he, ?_, step_executes h hf hd he⟩))
        rcases ht with ht | ⟨code, addr, hc, rfl⟩
        · exact .inl ht
        · exact .inr ⟨code, addr, hc, by rw [raiseFault, fetchedFrom_advance]⟩
    · exact .inr (.inl ⟨h, by omega, fetch_outside (by omega), step_fetchFault h (fetch_outside (by omega))⟩)
  · exact .inl ⟨h, step_faulted h⟩

/-- Inversion: a STEP of a decoded instruction is the end of that instruction's rule. -/
theorem step_next_of_decoded {s t : State} {w : Word} {i : Instr} (hf : s.fetches w) (hd : decodeWord w = .ok i)
    (h : step s = .next t) : ∃ u, exec i s.markStarted.advance = .next u ∧ t = State.finish i s.fb u := by
  obtain ⟨u, hu, -⟩ := exec_cases i s.markStarted.advance
  have := (step_executes hf.1 (fetch_of_fetches hf) hd hu).symm.trans h
  injection this with this
  exact ⟨u, hu, this.symm⟩

end Sys2Proof.Machine
end

