-- ==== Sys2Proof/Tests/Slice0.lean ====
section
/-! SUPPORT. Tests of single steps, with expected values from spec/95_test_vectors.md, and a witness for the hypotheses
of every statement that has some. -/

namespace Sys2Proof.Tests

open Sys2Proof Sys2Proof.Machine

/-! ## Small states -/

/-- The state after one STEP (the state itself if the STEP stopped, which no STEP does). -/
def after (s : State) : State :=
  match step s with
  | .next t => t
  | .fault _ | .refused _ => s

/-- Reset, with the word `w` at the reset `PC`. -/
def withWord (w : Nat) : State := State.reset.withFetchWord 16 w

/-- A byte placed in memory. -/
def poke (s : State) (a : Nat) (b : Byte) : State := { s with mem := s.mem.write a b }

/-- A pixel lit. -/
def light (s : State) (r : Fin 32) (c : Fin 64) : State := s.setFb (setPixelAt s.fb r c true)

/-- Reset with the word `w` at a given `PC`. -/
def withWordAt (pc : Word) (w : Nat) : State := (State.reset.setPc pc).withFetchWord 16 w

/-- The framebuffer whose lit pixels are those listed, (row, column). -/
def litFrame (ps : List (Nat × Nat)) : Frame :=
  ps.foldl (fun f p => setPixelAt f (wrapRow p.1) (wrapCol p.2) true) blankFrame

/-- A state for Draw: the sprite bytes at 0x300, `I` there, two registers set. -/
def drawState (w : Nat) (x : Nibble) (vx : Byte) (y : Nibble) (vy : Byte) (bytes : List Byte) : State :=
  let s := ((withWord w).setV x vx).setV y vy
  { s with i := 0x300#16, mem := s.mem.writeBytes 0x300 bytes }

/-! ## Decoding: words written out from the encoding column of opcode_table.json -/

theorem test_decode_nop : decodeWord 0b0000000000000000#16 = .ok .nop := by decide
theorem test_decode_cls : decodeWord 0b0000000011100000#16 = .ok .cls := by decide
theorem test_decode_ret : decodeWord 0b0000000011101110#16 = .ok .ret := by decide
theorem test_decode_jp : decodeWord 0b0001001000110100#16 = .ok (.jp 0x234#12) := by decide
theorem test_decode_ld : decodeWord 0b0110101001000010#16 = .ok (.ldVxKk 0xA#4 0x42#8) := by decide
theorem test_decode_add : decodeWord 0b0111111100000001#16 = .ok (.addVxKk 0xF#4 0x01#8) := by decide
theorem test_decode_ldI : decodeWord 0b1010001000001010#16 = .ok (.ldINnn 0x20A#12) := by decide
theorem test_decode_drw : decodeWord 0b1101000000010101#16 = .ok (.drw 0#4 1#4 5#4) := by decide

/-- 95_test_vectors.md D4 to D7, D10, D11, D15, D17, D20. -/
theorem test_decode_failures :
    [0x0001#16, 0x00E1#16, 0x00EF#16, 0x0FFF#16, 0x2000#16, 0x3A12#16, 0x8014#16, 0xB123#16, 0xFFFF#16].all
      (fun w => decodeWord w == .error (.decodeFailure w)) = true := by decide

theorem test_decode_truncated : decodeBytes [0x60#8] = .error .truncated := by decide

/-- 95_test_vectors.md E7: bytes in memory order. -/
theorem test_decode_bytes : decodeBytes [0x60#8, 0x0A#8, 0x70#8, 0x05#8] = .ok (.ldVxKk 0#4 0x0A#8, [0x70#8, 0x05#8]) := by
  decide

theorem test_table_word : decodeTableWord 16 0xA20A = some (.ldINnn 0x20A#12) := by decide

/-- 95_test_vectors.md E1. -/
theorem test_nibbles : nibbles 0x7A#8 = (0x7#4, 0xA#4) ∧ nibbles 0xD1#8 = (0xD#4, 0x1#4) := by decide

/-! ## Well-formedness refuses an ill-formed term for each check -/

theorem test_wf_register : ({ variant := .ldVxKk, operands := [16, 0] } : AsmLine).wellFormed = false := by decide
theorem test_wf_immediate : ({ variant := .addVxKk, operands := [0, 256] } : AsmLine).wellFormed = false := by decide
theorem test_wf_address : ({ variant := .jp, operands := [0x1000] } : AsmLine).wellFormed = false := by decide
theorem test_wf_height : ({ variant := .drw, operands := [0, 0, 16] } : AsmLine).wellFormed = false := by decide
theorem test_wf_missing : ({ variant := .drw, operands := [0, 0] } : AsmLine).wellFormed = false := by decide
theorem test_wf_surplus : ({ variant := .cls, operands := [0] } : AsmLine).wellFormed = false := by decide
theorem test_wf_db : (AsmItem.db [256]).wellFormed = false := by decide
theorem test_wf_org : (AsmItem.org 4096).wellFormed = false := by decide
theorem test_wf_accepts : ({ variant := .drw, operands := [15, 15, 15] } : AsmLine).toInstr = some (.drw 15#4 15#4 15#4) := by
  decide

/-- The text and the bytes of program P3's first line and data (95_test_vectors.md section 3). -/
theorem test_assemble :
    assemble [.line { variant := .ldINnn, operands := [0x20A] }, .org 0x20A, .db [0xF0, 0x90]]
      = some [(0x200, 0xA2#8), (0x201, 0x0A#8), (0x20A, 0xF0#8), (0x20B, 0x90#8)] := by decide

theorem test_text : Instr.text (.ldVxKk 10#4 0x3E#8) = "LD VA, 0x3E" := by decide

/-! ## One STEP each (95_test_vectors.md section 2, the vector named) -/

/-- N1 -/
theorem test_nop : (after (withWord 0x0000)).pc = 0x202#16 ∧ (after (withWord 0x0000)).result = .ok none := by
  decide +kernel

/-- C1, with VF kept (E8) -/
theorem test_cls :
    (after (light (light ((withWord 0x00E0).setV 15#4 0x5A#8) 0 0) 31 63)).fb = litFrame [] ∧
    (after ((withWord 0x00E0).setV 15#4 0x5A#8)).getV 15#4 = 0x5A#8 := by decide +kernel

/-- C2: what is presented under each policy -/
theorem test_cls_output :
    (after (withWord 0x00E0)).result = .ok (some blankFrame) ∧
    (after { withWord 0x00E0 with params := { Params.default with fbOutPolicy := .onChange } }).result = .ok none := by
  decide +kernel

/-- R1 -/
theorem test_ret :
    (after (withWordAt 0x204#16 0x00EE)).fault
      = { code := .unimplemented, pc := 0x204#16, word := 0x00EE#16, addr := 0#16 } ∧
    (after (withWordAt 0x204#16 0x00EE)).pc = 0x204#16 := by decide +kernel

/-- J1, J2 -/
theorem test_jp : (after (withWord 0x1234)).pc = 0x234#16 ∧ (after (withWord 0x1203)).pc = 0x203#16 := by
  decide +kernel

/-- R45: an odd `PC` fetches the bytes at `PC` and `PC + 1`. -/
theorem test_odd_pc : (after (withWordAt 0x203#16 0x600A)).getV 0#4 = 0x0A#8 := by decide +kernel

/-- J3: the STEP after a Jump to 0xFFF -/
theorem test_jp_top :
    (after (after (withWord 0x1FFF))).fault
      = { code := .memoryBounds, pc := 0xFFF#16, word := 0#16, addr := 0x1000#16 } ∧
    (after (after (withWord 0x1FFF))).pc = 0xFFF#16 := by decide +kernel

/-- L3, L4 -/
theorem test_ld :
    (after (withWord 0x6FFF)).getV 15#4 = 0xFF#8 ∧ (after ((withWord 0x6500).setV 5#4 0x77#8)).getV 5#4 = 0#8 := by
  decide +kernel

/-- A3: wrap with VF untouched -/
theorem test_add_wraps :
    (after (((withWord 0x7280).setV 2#4 0x80#8).setV 15#4 0x33#8)).getV 2#4 = 0#8 ∧
    (after (((withWord 0x7280).setV 2#4 0x80#8).setV 15#4 0x33#8)).getV 15#4 = 0x33#8 := by decide +kernel

/-- A4, A7: the largest operands; the destination VF -/
theorem test_add_corners :
    (after ((withWord 0x73FF).setV 3#4 0xFF#8)).getV 3#4 = 0xFE#8 ∧
    (after ((withWord 0x7F01).setV 15#4 0xFF#8)).getV 15#4 = 0#8 := by decide +kernel

/-- S2, S3 -/
theorem test_ldI :
    (after ((withWord 0xAFFF).setI 0x020A#16)).i = 0x0FFF#16 ∧ (after ((withWord 0xA000).setI 0x0FFF#16)).i = 0#16 := by
  decide +kernel

/-- W1: bits, columns and the cleared VF -/
theorem test_drw_sprite :
    (after ((drawState 0xD231 2#4 10#8 3#4 5#8 [0xA5#8]).setV 15#4 0x77#8)).fb
      = litFrame [(5, 10), (5, 12), (5, 15), (5, 17)] ∧
    (after ((drawState 0xD231 2#4 10#8 3#4 5#8 [0xA5#8]).setV 15#4 0x77#8)).getV 15#4 = 0#8 := by decide +kernel

/-- W3, W4: erasure is a collision, a neighbour is not -/
theorem test_drw_collision :
    (after (light (drawState 0xD231 2#4 12#8 3#4 5#8 [0x80#8]) 5 12)).getV 15#4 = 1#8 ∧
    (after (light (drawState 0xD231 2#4 12#8 3#4 5#8 [0x80#8]) 5 13)).getV 15#4 = 0#8 := by decide +kernel

/-- W7: both values of DRAW_COORDS_FIRST -/
theorem test_drw_coordinates :
    (after (drawState 0xDF11 15#4 60#8 1#4 0#8 [0xC0#8])).fb = litFrame [(0, 60), (0, 61)] ∧
    (after { drawState 0xDF11 15#4 60#8 1#4 0#8 [0xC0#8] with
      params := { Params.default with drawCoordsFirst := false } }).fb = litFrame [(0, 0), (0, 1)] := by decide +kernel

/-- W13: wrap at the right and the bottom edge -/
theorem test_drw_wraps :
    (after (drawState 0xD013 0#4 60#8 1#4 30#8 [0xFF#8, 0xFF#8, 0xFF#8])).fb =
      litFrame ([0, 30, 31].flatMap (fun r => [0, 1, 2, 3, 60, 61, 62, 63].map (fun c => (r, c)))) := by decide +kernel

/-- W9: the sprite leaves memory; nothing changes -/
theorem test_drw_bounds :
    (after ((withWordAt 0x206#16 0xD013).setI 0xFFE#16)).fault
      = { code := .memoryBounds, pc := 0x206#16, word := 0xD013#16, addr := 0x1000#16 } ∧
    (after (light (((withWordAt 0x206#16 0xD013).setI 0xFFE#16).setV 15#4 0x44#8) 3 3)).getV 15#4 = 0x44#8 := by
  decide +kernel

/-- W10: the last byte of memory is in range -/
theorem test_drw_last_byte : (after ((poke (withWord 0xD011) 0xFFF 0x01#8).setI 0xFFF#16)).fb = litFrame [(0, 7)] := by
  decide +kernel

/-- W11: both values of DRAW_N0_POLICY -/
theorem test_drw_height_zero :
    (after (withWordAt 0x206#16 0xD120)).fault
      = { code := .unimplemented, pc := 0x206#16, word := 0xD120#16, addr := 0#16 } ∧
    (after { (withWordAt 0x206#16 0xD120).setV 15#4 0x44#8 with
      params := { Params.default with drawN0Policy := .empty } }).getV 15#4 = 0#8 := by decide +kernel

/-- P-1, P-2 -/
theorem test_fetch_top :
    (after (withWordAt 0xFFE#16 0x00E0)).pc = 0x1000#16 ∧
    (after (State.reset.setPc 0x1000#16)).fault
      = { code := .memoryBounds, pc := 0x1000#16, word := 0#16, addr := 0x1000#16 } := by decide +kernel

/-- P-4, P-5 -/
theorem test_decode_failure_sticks :
    (after (withWordAt 0x202#16 0x8014)).fault
      = { code := .decodeFailure, pc := 0x202#16, word := 0x8014#16, addr := 0#16 } ∧
    after (after (withWordAt 0x202#16 0x8014)) = after (withWordAt 0x202#16 0x8014) := ⟨by decide +kernel, rfl⟩

/-- LD1, LD3 -/
theorem test_load :
    (State.reset.loadImage [0x60#8, 0x0A#8, 0x70#8, 0x05#8]).mem
      = [(0x200, 0x60#8), (0x201, 0x0A#8), (0x202, 0x70#8), (0x203, 0x05#8)] ∧
    transact (.load [0x60#8]) (after State.reset) = .refused .loadAfterStart := ⟨by decide +kernel, rfl⟩

/-- R151: 0 stays 0, and 5 goes to 4 -/
theorem test_timer : tickDown 0#8 = 0#8 ∧ tickDown 5#8 = 4#8 := by decide

/-- The host's question: the word runs as the first instruction after reset. -/
theorem test_host_word : (after (State.reset.withFetchWord 16 0x600A)).getV 0#4 = 0x0A#8 := by decide +kernel

/-! ## Witnesses: concrete states and operands that meet the hypotheses of a statement -/

theorem witness_EncodeOfDecode : decodeWord 0xD015#16 = .ok (.drw 0#4 1#4 5#4) := by decide

theorem witness_TableRowsGiveTheVariant : (⟨.jp, 0x1000#16, 0xF000#16⟩ : Row) ∈ opcodeTable := by decide

/-- Each clause at both ends of its range. -/
theorem witness_FieldWordsDecode :
    [0x1000#16, 0x1FFF#16].all (fun w => w &&& 0xF000#16 == 0x1000#16) = true ∧
    [0xA000#16, 0xAFFF#16].all (fun w => w &&& 0xF000#16 == 0xA000#16) = true ∧
    [0x6000#16, 0x6FFF#16].all (fun w => w &&& 0xF000#16 == 0x6000#16) = true ∧
    [0x7000#16, 0x7FFF#16].all (fun w => w &&& 0xF000#16 == 0x7000#16) = true ∧
    [0xD000#16, 0xDFFF#16].all (fun w => w &&& 0xF000#16 == 0xD000#16) = true := by decide

theorem witness_UnmatchedWordsFailToDecode : decodeWord 0x0001#16 = .error (.decodeFailure 0x0001#16) := by decide

theorem witness_NopChangesNothing : (withWord 0x0000).fetches 0x0000#16 := by decide +kernel

theorem witness_ReturnRaisesUnimplemented : (withWord 0x00EE).fetches 0x00EE#16 := by decide +kernel

theorem witness_JumpSetsPc : (withWord 0x1234).fetches 0x1234#16 := by decide +kernel

theorem witness_LoadWritesRegister :
    (0x6FFF#16).toNat = 0x6000 + (15#4).toNat * 256 + (255#8).toNat ∧ (0x6000#16).toNat = 0x6000 + (0#4).toNat * 256 + (0#8).toNat := by
  decide

theorem witness_AddWrapsWithoutFlag :
    (0x7FFF#16).toNat = 0x7000 + (15#4).toNat * 256 + (255#8).toNat ∧ (0#4 : Nibble) ≠ 15#4 := by decide

theorem witness_SetIndexWritesIndex : (0xAFFF#16).toNat = 0xA000 + (0xFFF#12).toNat := by decide

/-- The last sprite byte is the last byte of memory; both orders of the coordinates; a position inside the footprint and
one outside. -/
theorem witness_DrawXorsFootprint :
    (1#4 : Nibble) ≠ 0#4 ∧ ((withWord 0xD011).setI 0xFFF#16).i.toNat + (1#4).toNat ≤ 4096 ∧
    StartsAt ((withWord 0xD011).setI 0xFFF#16) 0#4 1#4 0 0 ∧
    StartsAt { (withWord 0xDF11).setV 15#4 60#8 with params := { Params.default with drawCoordsFirst := false } }
      15#4 1#4 0 0 ∧
    LandsOn 60 30 14 7 12 3 ∧
    ∀ i j, i < (1#4).toNat → j < 8 → ¬ LandsOn 0 0 i j 5 5 := by
  refine ⟨by decide, by decide +kernel, by decide +kernel, by decide +kernel, by decide, ?_⟩
  rintro i j hi - ⟨h, -⟩
  simp at hi h
  omega

/-- A Draw that meets a lit pixel, and one on a blank screen. -/
theorem witness_DrawCollisionFlag :
    (∃ i j r c, i < (1#4).toNat ∧ j < 8 ∧ LandsOn 12 5 i j r c ∧
      SpriteBit (light (drawState 0xD231 2#4 12#8 3#4 5#8 [0x80#8]) 5 12) i j = true ∧
      (light (drawState 0xD231 2#4 12#8 3#4 5#8 [0x80#8]) 5 12).pixel r c = true) ∧
    StartsAt (light (drawState 0xD231 2#4 12#8 3#4 5#8 [0x80#8]) 5 12) 2#4 3#4 12 5 ∧
    (drawState 0xD231 2#4 12#8 3#4 5#8 [0x80#8]).i.toNat + (1#4).toNat ≤ 4096 ∧
    ¬ ∃ i j r c, i < (1#4).toNat ∧ j < 8 ∧ LandsOn 12 5 i j r c ∧
      SpriteBit (withWord 0xD231) i j = true ∧ (withWord 0xD231).pixel r c = true := by
  refine ⟨⟨0, 0, 5, 12, by decide +kernel⟩, by decide +kernel, by decide +kernel, ?_⟩
  rintro ⟨i, j, r, c, -, -, -, -, h⟩
  have : (withWord 0xD231).pixel r c = false := by
    simp [State.pixel, withWord, State.withFetchWord, State.placeTableWord, State.reset, State.resetWith, Params.default,
      pixelAt, blankFrame]
  rw [this] at h
  cases h

theorem witness_DrawFrame : (15#4 : Nibble) ≠ 0#4 ∧ State.reset.i.toNat + (15#4).toNat ≤ 4096 := by decide +kernel

theorem witness_DrawOfHeightZero :
    State.reset.params.drawN0Policy = .fault ∧
    (State.resetWith { Params.default with drawN0Policy := .empty }).params.drawN0Policy = .empty := ⟨rfl, rfl⟩

/-- W9's sprite, one that begins past memory's end, and the boundary. -/
theorem witness_DrawOutsideMemoryFaults :
    (3#4 : Nibble) ≠ 0#4 ∧ 4096 < (State.reset.setI 0xFFE#16).i.toNat + (3#4).toNat ∧
    4096 < (State.reset.setI 0x1000#16).i.toNat + (1#4).toNat ∧ 4096 < (State.reset.setI 0xFFF#16).i.toNat + (2#4).toNat := by
  decide +kernel

/-- A first Draw that lights a pixel, and one (a sprite of zeros) that lights none. -/
theorem witness_DrawTwiceRestoresScreen :
    ((0#4 : Nibble) ≠ 15#4 ∧ (1#4 : Nibble) ≠ 15#4 ∧ (1#4 : Nibble) ≠ 0#4 ∧
      (drawState 0xD011 0#4 0#8 1#4 0#8 [0xA5#8]).i.toNat + (1#4).toNat ≤ 4096 ∧
      (drawState 0xD011 0#4 0#8 1#4 0#8 [0xA5#8]).pixel 0 0 = false ∧
      (after (drawState 0xD011 0#4 0#8 1#4 0#8 [0xA5#8])).pixel 0 0 = true) ∧
    ¬ ∃ r c, (drawState 0xD011 0#4 0#8 1#4 0#8 [0x00#8]).pixel r c = false ∧
      (after (drawState 0xD011 0#4 0#8 1#4 0#8 [0x00#8])).pixel r c = true := by
  refine ⟨by decide +kernel, ?_⟩
  rintro ⟨r, c, h1, h2⟩
  have same : (after (drawState 0xD011 0#4 0#8 1#4 0#8 [0x00#8])).fb = (drawState 0xD011 0#4 0#8 1#4 0#8 [0x00#8]).fb := by
    decide +kernel
  rw [State.pixel, same] at h2
  rw [State.pixel, h2] at h1
  cases h1

theorem witness_RegisterWriters :
    exec (.ldVxKk 3#4 7#8) State.reset = .next (State.reset.setV 3#4 7#8) ∧
    (State.reset.setV 3#4 7#8).getV 3#4 ≠ State.reset.getV 3#4 := ⟨rfl, by decide +kernel⟩

theorem witness_IndexWriters :
    exec (.ldINnn 0xFFF#12) State.reset = .next (State.reset.setI 0xFFF#16) ∧
    (State.reset.setI 0xFFF#16).i ≠ State.reset.i := ⟨rfl, by decide +kernel⟩

theorem witness_ScreenWriters :
    step (light (withWord 0x00E0) 3 3) = .next (after (light (withWord 0x00E0) 3 3)) ∧
    (after (light (withWord 0x00E0) 3 3)).pixel 3 3 ≠ (light (withWord 0x00E0) 3 3).pixel 3 3 :=
  ⟨rfl, by decide +kernel⟩

theorem witness_StepStoresNothing : step State.reset = .next (after State.reset) := rfl

/-- A Jump and a Load that complete. -/
theorem witness_ProgramCounterRule :
    (withWord 0x1FFF).fetches 0x1FFF#16 ∧ decodeWord 0x1FFF#16 = .ok (.jp 0xFFF#12) ∧
    step (withWord 0x1FFF) = .next (after (withWord 0x1FFF)) ∧ (after (withWord 0x1FFF)).fault.code = .none ∧
    (withWordAt 0xFFE#16 0x600A).fetches 0x600A#16 ∧
    step (withWordAt 0xFFE#16 0x600A) = .next (after (withWordAt 0xFFE#16 0x600A)) ∧
    (after (withWordAt 0xFFE#16 0x600A)).fault.code = .none :=
  ⟨by decide +kernel, by decide, rfl, by decide +kernel, by decide +kernel, rfl, by decide +kernel⟩

theorem witness_StepRunsDecodedInstruction :
    (withWordAt 0xFFE#16 0xD015).fetches 0xD015#16 ∧ decodeWord 0xD015#16 = .ok (.drw 0#4 1#4 5#4) :=
  ⟨by decide +kernel, by decide⟩

theorem witness_FetchIsBigEndian : (State.reset.setPc 0xFFE#16).pc.toNat + 1 ≤ 4095 := by decide +kernel

/-- Both clauses of the reported address: `PC = 0xFFF` and beyond. -/
theorem witness_FetchOutsideMemoryFaults :
    (State.reset.setPc 0xFFF#16).fault.code = .none ∧ 4095 < (State.reset.setPc 0xFFF#16).pc.toNat + 1 ∧
    4095 < (State.reset.setPc 0x1000#16).pc.toNat + 1 ∧ 4095 < (State.reset.setPc 0xFFFF#16).pc.toNat + 1 := by
  decide +kernel

theorem witness_UndecodableWordFaults :
    (withWord 0x8014).fetches 0x8014#16 ∧ decodeWord 0x8014#16 = .error (.decodeFailure 0x8014#16) :=
  ⟨by decide +kernel, by decide⟩

/-- A faulted state, and a transaction of each kind that goes on from it. -/
theorem witness_FaultIsSticky :
    (after (withWord 0x8014)).fault.code ≠ .none ∧
    transact .timerTick (after (withWord 0x8014)) = .next (after (withWord 0x8014)).timerTick ∧
    Transaction.timerTick ≠ .reset := ⟨by decide +kernel, rfl, by decide⟩

theorem witness_FaultingStepChangesNothing :
    (withWord 0x00EE).fault.code = .none ∧ step (withWord 0x00EE) = .next (after (withWord 0x00EE)) ∧
    (after (withWord 0x00EE)).fault.code ≠ .none := ⟨by decide +kernel, rfl, by decide +kernel⟩

/-- Each clause: fetch bounds, decode failure, an instruction that does not fault, Return, Draw with n = 0, Draw whose
sprite leaves memory. -/
theorem witness_FaultPriority :
    State.reset.fault.code = .none ∧ 4095 < (State.reset.setPc 0xFFF#16).pc.toNat + 1 ∧
    (withWord 0x0001).fetches 0x0001#16 ∧ decodeWord 0x0001#16 = .error (.decodeFailure 0x0001#16) ∧
    (withWord 0x00E0).fetches 0x00E0#16 ∧ (withWord 0x00EE).fetches 0x00EE#16 ∧
    decodeWord 0x00E0#16 = .ok .cls ∧ decodeWord 0x00EE#16 = .ok .ret ∧
    (withWord 0xD010).fetches 0xD010#16 ∧ decodeWord 0xD010#16 = .ok (.drw 0#4 1#4 0#4) ∧
    (withWord 0xD010).params.drawN0Policy = .fault ∧
    ((withWord 0xD011).setI 0x1000#16).fetches 0xD011#16 ∧ decodeWord 0xD011#16 = .ok (.drw 0#4 1#4 1#4) ∧
    4096 < ((withWord 0xD011).setI 0x1000#16).i.toNat + (1#4).toNat := by decide +kernel

theorem witness_ResultCarriesFrameOrFault :
    step (withWord 0x00E0) = .next (after (withWord 0x00E0)) ∧ (after (withWord 0x00E0)).fault.code = .none ∧
    step (withWord 0x00EE) = .next (after (withWord 0x00EE)) ∧ (after (withWord 0x00EE)).fault.code ≠ .none :=
  ⟨rfl, by decide +kernel, rfl, by decide +kernel⟩

/-- A machine that presents on change, about to clear a screen with one lit pixel. -/
def onChangeState : State :=
  { light (withWord 0x00E0) 3 3 with params := { Params.default with fbOutPolicy := .onChange } }

/-- Both policies, and a STEP that returns no framebuffer. -/
theorem witness_FramebufferOutput :
    ((withWord 0x00E0).fetches 0x00E0#16 ∧ decodeWord 0x00E0#16 = .ok .cls ∧
      step (withWord 0x00E0) = .next (after (withWord 0x00E0)) ∧ (after (withWord 0x00E0)).fault.code = .none ∧
      (withWord 0x00E0).params.fbOutPolicy = .onDisplayInstruction) ∧
    (onChangeState.fetches 0x00E0#16 ∧ step onChangeState = .next (after onChangeState) ∧
      (after onChangeState).fault.code = .none ∧ onChangeState.params.fbOutPolicy = .onChange ∧
      (after onChangeState).pixel 3 3 ≠ onChangeState.pixel 3 3) ∧
    (withWord 0x0000).fetches 0x0000#16 ∧ (after (withWord 0x0000)).result = .ok none :=
  ⟨⟨by decide +kernel, by decide, rfl, by decide +kernel, rfl⟩,
    ⟨by decide +kernel, rfl, by decide +kernel, rfl, by decide +kernel⟩, by decide +kernel, by decide +kernel⟩

theorem reset_inv : State.reset.Inv where
  memory := rfl
  stackForm := rfl
  reserved := fun _ _ => rfl
  index := by decide
  counter := by decide
  delay := rfl
  sound := rfl
  fault := ⟨rfl, rfl, rfl⟩
  stopped := fun h => absurd rfl h

theorem witness_StepKeepsInvariant : State.reset.Inv ∧ step State.reset = .next (after State.reset) := ⟨reset_inv, rfl⟩

theorem witness_TransactionsKeepInvariant :
    State.reset.Inv ∧ transact (.load [0x60#8, 0x0A#8]) State.reset = .next (State.reset.loadImage [0x60#8, 0x0A#8]) :=
  ⟨reset_inv, rfl⟩

theorem witness_EqualReadsEqualMemories :
    Memory.wf [(0x200, 0x60#8), (0xFFF, 1#8)] = true ∧ Memory.wf [(0x1000, 1#8)] = false ∧
    Memory.wf [(3, 0#8)] = false ∧ Memory.wf [(3, 1#8), (3, 2#8)] = false := by decide

/-- Only a state that already holds the code keeps it; no run reaches one. -/
theorem witness_RangeViolationNeverRaised :
    step (takeFault .rangeViolation 0#16 0#16 0#16 State.reset)
      = .next (after (takeFault .rangeViolation 0#16 0#16 0#16 State.reset)) ∧
    (after (takeFault .rangeViolation 0#16 0#16 0#16 State.reset)).fault.code = .rangeViolation := ⟨rfl, rfl⟩

theorem witness_LoadCopiesAndTruncates :
    State.reset.started = false ∧ State.reset.mem.wf = true ∧ (after State.reset).started = true := ⟨rfl, rfl, rfl⟩

theorem witness_BuzzerStaysSilent : State.reset.Inv ∧ transact .timerTick State.reset = .next State.reset.timerTick :=
  ⟨reset_inv, rfl⟩

/-- J4: a Jump to itself. -/
theorem witness_IdleRunStaysIdle : (withWord 0x1200).idle :=
  ⟨rfl, 0x1200#16, 0x200#12, by decide +kernel, by decide, by decide⟩

end Sys2Proof.Tests
end

/-! SUPPORT. PROOFS for 10_state.md: who writes the program counter (R26). -/

namespace Sys2Proof.Machine

open Sys2Proof

@[simp] theorem advance_pc (s : State) : s.advance.pc = s.pc + 2#16 := rfl

@[simp] theorem drawSprite_pc (x y n : Nibble) (s : State) : (drawSprite x y n s).pc = s.pc := rfl

/-- "No other instruction writes it" (R26): an instruction rule but that of Jump leaves `PC` alone, or it raises a fault
(Return, and a Draw that cannot be drawn), whose entry puts `PC` back. -/
theorem exec_keeps_pc_or_faults {i : Instr} (s : State) (hj : ∀ nnn, i ≠ .jp nnn) :
    ∃ u, exec i s = .next u ∧ (u.pc = s.pc ∨ u.fault.code ≠ .none) := by
  cases i with
  | jp nnn => exact absurd rfl (hj nnn)
  | nop | cls | ldVxKk | addVxKk | ldINnn => exact ⟨_, rfl, .inl rfl⟩
  | ret => exact ⟨_, rfl, .inr FaultCode.noConfusion⟩
  | drw x y n =>
    rcases execDrw_cases x y n s with ⟨-, -, h⟩ | ⟨-, -, h⟩ | ⟨-, -, h⟩ | ⟨-, -, h⟩
    · exact ⟨_, h, .inr FaultCode.noConfusion⟩
    · exact ⟨_, h, .inl rfl⟩
    · exact ⟨_, h, .inr FaultCode.noConfusion⟩
    · exact ⟨_, h, .inl (drawSprite_pc x y n s)⟩

/-- Settles O28: the STEP advances `PC` before the rule runs, and of the rules that complete only Jump's writes it. -/
theorem programCounterRule : Obligations.ProgramCounterRule := by
  refine And.intro rfl fun s t w i hf hd hs hc => ?_
  obtain ⟨u, he, rfl⟩ := step_next_of_decoded hf hd hs
  rw [finish_fault] at hc
  rw [finish_pc]
  have others (hj : ∀ nnn, i ≠ .jp nnn) : u.pc = s.pc + 2#16 := by
    obtain ⟨u', he', hu⟩ := exec_keeps_pc_or_faults s.markStarted.advance hj
    obtain rfl := Host.Outcome.next.inj (he'.symm.trans he)
    exact (hu.resolve_right (not_not_intro hc)).trans (advance_pc s.markStarted)
  cases i with
  | jp nnn => exact congrArg State.pc (Host.Outcome.next.inj he).symm
  | nop | cls | ret | ldVxKk | addVxKk | ldINnn | drw => exact others fun _ => Instr.noConfusion

end Sys2Proof.Machine

/-! SUPPORT. PROOFS for 20_memory.md: the order of a fetched word's two bytes (R44). -/

namespace Sys2Proof.Machine

open Sys2Proof

/-- A word from its bytes as R44 writes it, with a shift and an OR. -/
theorem wordOfBytes_eq_shiftLeft_or (high low : Byte) :
    wordOfBytes high low = (high.setWidth 16 <<< 8) ||| low.setWidth 16 := by
  rw [wordOfBytes, BitVec.append_def, BitVec.shiftLeftZeroExtend_eq, BitVec.setWidth'_eq]

/-- Settles O30: a fetch inside memory gives the word of the bytes at `PC` and `PC + 1`, the former in bits 15..8. -/
theorem fetchIsBigEndian : Obligations.FetchIsBigEndian :=
  fun _ hp => ⟨_, fetch_inside hp, wordOfBytes_eq_shiftLeft_or _ _⟩

end Sys2Proof.Machine

/-! SUPPORT. PROOFS for 30_encoding.md: what the decoder answers by primary opcode (R65 to R69), and the nibbles of a byte
(R60). -/

namespace Sys2Proof

open Laws

/-! ## The decoder by primary opcode -/

theorem decodeWord_of_opOf_0 {w : Word} (h : (opOf w).toNat = 0x0) :
    decodeWord w =
      if w = 0x0000#16 then .ok .nop
      else if w = 0x00E0#16 then .ok .cls
      else if w = 0x00EE#16 then .ok .ret
      else .error (.decodeFailure w) := by
  simp [decodeWord, h]

theorem decodeWord_of_opOf_1 {w : Word} (h : (opOf w).toNat = 0x1) : decodeWord w = .ok (.jp (nnnOf w)) := by
  simp [decodeWord, h]

theorem decodeWord_of_opOf_6 {w : Word} (h : (opOf w).toNat = 0x6) :
    decodeWord w = .ok (.ldVxKk (xOf w) (kkOf w)) := by
  simp [decodeWord, h]

theorem decodeWord_of_opOf_7 {w : Word} (h : (opOf w).toNat = 0x7) :
    decodeWord w = .ok (.addVxKk (xOf w) (kkOf w)) := by
  simp [decodeWord, h]

theorem decodeWord_of_opOf_A {w : Word} (h : (opOf w).toNat = 0xA) : decodeWord w = .ok (.ldINnn (nnnOf w)) := by
  simp [decodeWord, h]

theorem decodeWord_of_opOf_D {w : Word} (h : (opOf w).toNat = 0xD) :
    decodeWord w = .ok (.drw (xOf w) (yOf w) (nOf w)) := by
  simp [decodeWord, h]

/-- R70: a primary opcode that no row of the table has. -/
theorem decodeWord_of_opOf_unassigned {w : Word} (h0 : (opOf w).toNat ≠ 0x0) (h1 : (opOf w).toNat ≠ 0x1)
    (h6 : (opOf w).toNat ≠ 0x6) (h7 : (opOf w).toNat ≠ 0x7) (hA : (opOf w).toNat ≠ 0xA) (hD : (opOf w).toNat ≠ 0xD) :
    decodeWord w = .error (.decodeFailure w) := by
  simp [decodeWord, *]

/-- Settles O3: the two dispatches agree at each primary opcode, and each field is the number R63 says. -/
theorem decoderFollowsDispatch : Obligations.DecoderFollowsDispatch := by
  intro w
  dsimp only
  rw [← opOf_toNat, ← xOf_eq, ← yOf_eq, ← nOf_eq, ← kkOf_eq, ← nnnOf_eq]
  by_cases h0 : (opOf w).toNat = 0x0
  · rw [if_pos h0, decodeWord_of_opOf_0 h0]
    simp only [BitVec.toNat_eq, BitVec.toNat_ofNat]
  rw [if_neg h0]
  split_ifs with h1 h6 h7 hA hD
  · exact decodeWord_of_opOf_1 h1
  · exact decodeWord_of_opOf_6 h6
  · exact decodeWord_of_opOf_7 h7
  · exact decodeWord_of_opOf_A hA
  · exact decodeWord_of_opOf_D hD
  · exact decodeWord_of_opOf_unassigned h0 h1 h6 h7 hA hD

/-! ## Words and their masks -/

/-- An instruction without operands has one word (R66, R67). -/
theorem decodeWord_eq_ok_iff_of_operands_nil {i : Instr} (hi : i.operands = []) (w : Word) :
    decodeWord w = .ok i ↔ w = encode i := by
  constructor
  · intro h
    rw [decoderFollowsDispatch w] at h
    split_ifs at h with _ hw hw hw <;> cases h
    · exact BitVec.eq_of_toNat_eq hw
    · exact BitVec.eq_of_toNat_eq hw
    · exact BitVec.eq_of_toNat_eq hw
    all_goals cases hi
  · rintro rfl
    cases i with
    | nop | cls | ret => rfl
    | jp | ldVxKk | addVxKk | ldINnn | drw => cases hi

/-- Settles O5: mask `0xFFFF` keeps the whole word. -/
theorem fixedWordsDecode : Obligations.FixedWordsDecode := by
  intro w
  rw [show w &&& 0xFFFF#16 = w from BitVec.and_allOnes]
  exact ⟨decodeWord_eq_ok_iff_of_operands_nil rfl w, decodeWord_eq_ok_iff_of_operands_nil rfl w,
    decodeWord_eq_ok_iff_of_operands_nil rfl w⟩

/-- A word that matches a row with mask `0xF000` has the row's primary opcode. -/
theorem opOf_toNat_of_and_highNibble {w : Word} (op : Nibble) (h : w &&& 0xF000#16 = op ++ 0#12) :
    (opOf w).toNat = op.toNat := by
  rw [and_highNibble] at h
  rw [← opOf_nnn (opOf w) 0#12, h, opOf_nnn]

/-- R63: the three nibbles of the address stand side by side in the word. -/
theorem nnnOf_eq_extractLsb' (w : Word) : nnnOf w = w.extractLsb' 0 12 := by
  apply BitVec.eq_of_toNat_eq
  rw [nnnOf_eq, BitVec.extractLsb'_toNat]
  simp

/-- Settles O6: the mask leaves the primary opcode, which picks the branch of the decoder. -/
theorem fieldWordsDecode : Obligations.FieldWordsDecode := by
  intro w
  rw [← nnnOf_eq_extractLsb']
  exact ⟨fun h => decodeWord_of_opOf_1 (opOf_toNat_of_and_highNibble 0x1#4 h),
    fun h => decodeWord_of_opOf_A (opOf_toNat_of_and_highNibble 0xA#4 h),
    fun h => decodeWord_of_opOf_6 (opOf_toNat_of_and_highNibble 0x6#4 h),
    fun h => decodeWord_of_opOf_7 (opOf_toNat_of_and_highNibble 0x7#4 h),
    fun h => decodeWord_of_opOf_D (opOf_toNat_of_and_highNibble 0xD#4 h)⟩

/-! ## The nibbles of a byte -/

theorem nibbles_fst_toNat (b : Byte) : (nibbles b).1.toNat = b.toNat / 16 := by
  have := b.isLt
  rw [nibbles, BitVec.extractLsb'_toNat, Nat.shiftRight_eq_div_pow]
  omega

theorem nibbles_snd_toNat (b : Byte) : (nibbles b).2.toNat = b.toNat % 16 := by
  simp [nibbles, BitVec.extractLsb'_toNat]

theorem nibbles_fst_eq_shiftRight (b : Byte) : (nibbles b).1 = (b >>> 4).setWidth 4 := by
  apply BitVec.eq_of_toNat_eq
  rw [nibbles, BitVec.extractLsb'_toNat, BitVec.toNat_setWidth, BitVec.toNat_ushiftRight]

theorem nibbles_snd_eq_and (b : Byte) : (nibbles b).2 = (b &&& 0xF#8).setWidth 4 := by
  apply BitVec.eq_of_toNat_eq
  rw [nibbles_snd_toNat, BitVec.toNat_setWidth, BitVec.toNat_and]
  simp [Nat.and_two_pow_sub_one_eq_mod b.toNat 4]

/-- Settles O9: the shift and the mask cut out the two halves, and a nibble is below 16. -/
theorem nibblesSplitEveryByte : Obligations.NibblesSplitEveryByte := fun b =>
  ⟨nibbles_fst_eq_shiftRight b, nibbles_fst_toNat b, nibbles_snd_eq_and b, nibbles_snd_toNat b,
    Nat.le_of_lt_succ (nibbles b).1.isLt, Nat.le_of_lt_succ (nibbles b).2.isLt⟩

end Sys2Proof

/-! SUPPORT. PROOFS for 40_arith_control.md: Nop, Load, Add and SetIndex (R81, R85, R86, R87), each from the number of its
word to the state it leaves. -/

namespace Sys2Proof

/-! ## Words given as numbers (30_encoding.md R63) -/

theorem opOf_toNat_of_toNat {w : Word} {op r : Nat} (hr : r < 4096) (h : w.toNat = op * 4096 + r) :
    (opOf w).toNat = op := by
  rw [opOf_toNat]
  omega

/-- The fields of a word of the format XKK. -/
theorem fields_of_toNat_xkk {w : Word} {op : Nat} {x : Nibble} {kk : Byte}
    (h : w.toNat = op * 4096 + x.toNat * 256 + kk.toNat) : (opOf w).toNat = op ∧ xOf w = x ∧ kkOf w = kk := by
  have hx := x.isLt
  have hkk := kk.isLt
  refine ⟨opOf_toNat_of_toNat (by omega) (h.trans (Nat.add_assoc ..)), ?_, ?_⟩
  · rw [xOf_eq, show w.toNat / 256 % 16 = x.toNat by omega, BitVec.ofNat_toNat, BitVec.setWidth_eq]
  · rw [kkOf_eq, show w.toNat % 256 = kk.toNat by omega, BitVec.ofNat_toNat, BitVec.setWidth_eq]

/-- The fields of a word of the format NNN. -/
theorem fields_of_toNat_nnn {w : Word} {op : Nat} {nnn : Datum} (h : w.toNat = op * 4096 + nnn.toNat) :
    (opOf w).toNat = op ∧ nnnOf w = nnn := by
  have hn := nnn.isLt
  refine ⟨opOf_toNat_of_toNat hn h, ?_⟩
  rw [nnnOf_eq, show w.toNat % 4096 = nnn.toNat by omega, BitVec.ofNat_toNat, BitVec.setWidth_eq]

theorem decodeWord_of_toNat_6xkk {w : Word} {x : Nibble} {kk : Byte}
    (h : w.toNat = 0x6000 + x.toNat * 256 + kk.toNat) : decodeWord w = .ok (.ldVxKk x kk) := by
  obtain ⟨hop, rfl, rfl⟩ := fields_of_toNat_xkk (op := 0x6) h
  exact decodeWord_of_opOf_6 hop

theorem decodeWord_of_toNat_7xkk {w : Word} {x : Nibble} {kk : Byte}
    (h : w.toNat = 0x7000 + x.toNat * 256 + kk.toNat) : decodeWord w = .ok (.addVxKk x kk) := by
  obtain ⟨hop, rfl, rfl⟩ := fields_of_toNat_xkk (op := 0x7) h
  exact decodeWord_of_opOf_7 hop

theorem decodeWord_of_toNat_Annn {w : Word} {nnn : Datum} (h : w.toNat = 0xA000 + nnn.toNat) :
    decodeWord w = .ok (.ldINnn nnn) := by
  obtain ⟨hop, rfl⟩ := fields_of_toNat_nnn (op := 0xA) h
  exact decodeWord_of_opOf_A hop

end Sys2Proof

namespace Sys2Proof.Machine

open Sys2Proof

/-! ## What the four rules answer -/

@[simp] theorem exec_nop (s : State) : exec .nop s = .next s := rfl

@[simp] theorem exec_ldVxKk (x : Nibble) (kk : Byte) (s : State) : exec (.ldVxKk x kk) s = .next (s.setV x kk) := rfl

@[simp] theorem exec_addVxKk (x : Nibble) (kk : Byte) (s : State) :
    exec (.addVxKk x kk) s = .next (s.setV x (addWrap (s.getV x) kk)) := rfl

@[simp] theorem exec_ldINnn (nnn : Datum) (s : State) : exec (.ldINnn nnn) s = .next (s.setI (zextDatum nnn)) := rfl

/-! ## Frames of the two writes -/

theorem setV_sameRegsBut (s : State) (x : Nibble) (b : Byte) : SameRegsBut [x] s (s.setV x b) :=
  fun _ hy => getV_setV_other s b (List.ne_of_not_mem_cons hy)

/-- A register write keeps everything but its register. -/
theorem setV_frame (s : State) (x : Nibble) (b : Byte) :
    SameRegsBut [x] s (s.setV x b) ∧ (s.setV x b).i = s.i ∧ (s.setV x b).pc = s.pc ∧ (s.setV x b).fault = s.fault ∧
      SameScreen s (s.setV x b) ∧ SameMemory s (s.setV x b) ∧ SameReserved s (s.setV x b) :=
  ⟨setV_sameRegsBut s x b, setV_i s x b, setV_pc s x b, setV_fault s x b, fun _ _ => rfl, readByte_setV s x b,
    (completes_setV s x b).reserved⟩

theorem setI_sameReserved (s : State) (a : Word) : SameReserved s (s.setI a) :=
  ⟨rfl, rfl, rfl, rfl, rfl, rfl, rfl, rfl⟩

/-- Bits 15..12 of a zero-extended address (30_encoding.md R64). -/
theorem opOf_zextDatum (nnn : Datum) : opOf (zextDatum nnn) = 0#4 := by
  apply BitVec.eq_of_toNat_eq
  rw [opOf_toNat, zextDatum_toNat, Nat.div_eq_of_lt nnn.isLt, BitVec.toNat_zero]

/-! ## The result of a STEP that draws nothing -/

/-- Under both policies of R125 a STEP that is no display instruction and changes no pixel presents nothing. -/
theorem fbOut_eq_none_of_not_isDisplay {i : Instr} (hi : isDisplay i = false) (p : FbOutPolicy) (f : Frame) :
    fbOut p i f f = none := by
  cases p with
  | onDisplayInstruction => simp [fbOut, presents, hi]
  | onChange => simp [fbOut, presents]

/-! ## The obligations -/

/-- Settles O11: the rule answers its own state, so the STEP is the mark, the advance of `PC` and the result. -/
theorem nopChangesNothing : Obligations.NopChangesNothing := by
  refine ⟨rfl, exec_nop, fun s hf => ?_⟩
  have hout : fbOut s.params.fbOutPolicy .nop s.fb s.fb = none := fbOut_eq_none_of_not_isDisplay rfl _ _
  rw [step_executes hf.1 (fetch_of_fetches hf) rfl (exec_nop _), finish_ok s.markStarted.advance hf.1]
  exact congrArg (fun o => Host.Outcome.next (s.markStarted.advance.setResult (.ok o))) hout

/-- Settles O15: `VF` is a register like the others, so x = 15 is no case of its own. -/
theorem loadWritesRegister : Obligations.LoadWritesRegister := fun x kk =>
  ⟨fun _ => decodeWord_of_toNat_6xkk, fun s => ⟨_, exec_ldVxKk x kk s, getV_setV_self s x kk, setV_frame s x kk⟩⟩

/-- Settles O16: the 9-bit sum cut to 8 bits is the sum modulo 256, and `VF` falls under the frame unless x = 15. -/
theorem addWrapsWithoutFlag : Obligations.AddWrapsWithoutFlag := by
  refine fun x kk => ⟨fun _ => decodeWord_of_toNat_7xkk, fun s => ⟨_, exec_addVxKk x kk s, ?_, ?_, setV_frame s x _⟩⟩
  · rw [getV_setV_self, addWrap_toNat]
  · exact fun hx => getV_setV_other s _ hx.symm

/-- Settles O17: the zero-extended address has the address's number and no bit above it. -/
theorem setIndexWritesIndex : Obligations.SetIndexWritesIndex := fun nnn =>
  ⟨fun _ => decodeWord_of_toNat_Annn, fun s =>
    ⟨_, exec_ldINnn nnn s, zextDatum_toNat nnn, opOf_zextDatum nnn, fun _ _ => getV_setI s _ _, setI_pc s _,
      setI_fault s _, fun _ _ => rfl, readByte_setI s _, setI_sameReserved s _⟩⟩

end Sys2Proof.Machine

/-! SUPPORT. PROOFS for 45_step_and_interface.md: what the result port carries when a STEP ends (R124, R128). -/

namespace Sys2Proof.Machine

open Sys2Proof

/-- What a STEP hands to the host (R124): without a recorded fault `Ok`, with no frame or with the framebuffer; with one,
`Err` of the fault status register. -/
structure Answered (t : State) : Prop where
  ok : t.fault.code = .none → t.result = .ok none ∨ t.result = .ok (some t.fb)
  err : t.fault.code ≠ .none → t.result = .err t.fault

/-- Whatever the policy of R125 decides, the only frame it can present is the one after the step. -/
theorem fbOut_eq_none_or_some_after (p : FbOutPolicy) (i : Instr) (before after : Frame) :
    fbOut p i before after = none ∨ fbOut p i before after = some after :=
  (ite_eq_or_eq _ _ _).symm

theorem answered_reportFault {s : State} (h : s.fault.code ≠ .none) : Answered s.reportFault :=
  ⟨fun hn => absurd hn h, fun _ => rfl⟩

theorem answered_finish (i : Instr) (before : Frame) (s : State) : Answered (State.finish i before s) := by
  by_cases h : s.fault.code = .none
  · rw [finish_ok s h]
    exact ⟨fun _ => (fbOut_eq_none_or_some_after _ i before s.fb).imp (congrArg _) (congrArg _), fun hf => absurd h hf⟩
  · rw [finish_err s h]
    exact answered_reportFault h

/-- Each of the four ways a STEP can go ends in a report of the fault register or in `finish`. -/
theorem step_answers (s : State) : ∃ t, step s = .next t ∧ Answered t := by
  rcases step_cases s with ⟨hf, h⟩ | ⟨-, -, -, h⟩ | ⟨w, -, -, -, -, -, h⟩ | ⟨-, i, u, -, -, -, -, -, -, h⟩
  · exact ⟨_, h, answered_reportFault hf⟩
  · exact ⟨_, h, answered_reportFault FaultCode.noConfusion⟩
  · exact ⟨_, h, answered_reportFault FaultCode.noConfusion⟩
  · exact ⟨_, h, answered_finish i s.fb u⟩

/-- Settles O37: the fault register after the STEP says which of the two results it is. -/
theorem stepAlwaysCompletes : Obligations.StepAlwaysCompletes := by
  intro s
  obtain ⟨t, hs, ht⟩ := step_answers s
  refine ⟨t, hs, ?_⟩
  by_cases hf : t.fault.code = .none
  · exact .inl ((ht.ok hf).elim (⟨_, ·⟩) (⟨_, ·⟩))
  · exact .inr ⟨_, ht.err hf⟩

/-- Settles O38: the one state a STEP answers is an answered one. -/
theorem resultCarriesFrameOrFault : Obligations.ResultCarriesFrameOrFault := by
  intro s t hs
  obtain ⟨u, hu, ht⟩ := step_answers s
  obtain rfl := Host.Outcome.next.inj (hu.symm.trans hs)
  exact ⟨ht.ok, ht.err⟩

end Sys2Proof.Machine

/-! SUPPORT. PROOFS for 30_encoding.md: decoder and encoder are inverse to each other (section 4), the rows of the
opcode table (section 5), the words that decode to nothing (R70), and the 12-bit Datum (R61). -/

namespace Sys2Proof

open Laws

/-! ## The encoder as numbers: the opcode, then each operand at its place -/

theorem encode_jp_toNat (nnn : Datum) : (encode (.jp nnn)).toNat = 0x1 * 4096 + nnn.toNat := append_toNat _ _

theorem encode_ldINnn_toNat (nnn : Datum) : (encode (.ldINnn nnn)).toNat = 0xA * 4096 + nnn.toNat := append_toNat _ _

/-- A word of the format XKK (R63), put together from its fields. -/
theorem append_xkk_toNat (op x : Nibble) (kk : Byte) :
    (op ++ x ++ kk).toNat = op.toNat * 4096 + x.toNat * 256 + kk.toNat := by
  rw [append_toNat, append_toNat]
  omega

theorem encode_ldVxKk_toNat (x : Nibble) (kk : Byte) :
    (encode (.ldVxKk x kk)).toNat = 0x6 * 4096 + x.toNat * 256 + kk.toNat := append_xkk_toNat _ _ _

theorem encode_addVxKk_toNat (x : Nibble) (kk : Byte) :
    (encode (.addVxKk x kk)).toNat = 0x7 * 4096 + x.toNat * 256 + kk.toNat := append_xkk_toNat _ _ _

theorem encode_drw_toNat (x y n : Nibble) :
    (encode (.drw x y n)).toNat = 0xD * 4096 + x.toNat * 256 + y.toNat * 16 + n.toNat := by
  rw [show encode (.drw x y n) = 0xD#4 ++ x ++ y ++ n from rfl, append_toNat, append_toNat, append_toNat,
    show (0xD#4).toNat = 0xD from rfl]
  omega

/-! ## Round trips -/

/-- The fields of a word of the format XYN. -/
theorem fields_of_toNat_xyn {w : Word} {op : Nat} {x y n : Nibble}
    (h : w.toNat = op * 4096 + x.toNat * 256 + y.toNat * 16 + n.toNat) :
    (opOf w).toNat = op ∧ xOf w = x ∧ yOf w = y ∧ nOf w = n := by
  have hx := x.isLt
  have hy := y.isLt
  have hn := n.isLt
  have hop : w.toNat = op * 4096 + (x.toNat * 256 + y.toNat * 16 + n.toNat) := by simp only [h, Nat.add_assoc]
  refine ⟨opOf_toNat_of_toNat (by omega) hop, ?_, ?_, ?_⟩
  · rw [xOf_eq, show w.toNat / 256 % 16 = x.toNat by omega, BitVec.ofNat_toNat, BitVec.setWidth_eq]
  · rw [yOf_eq, show w.toNat / 16 % 16 = y.toNat by omega, BitVec.ofNat_toNat, BitVec.setWidth_eq]
  · rw [nOf_eq, show w.toNat % 16 = n.toNat by omega, BitVec.ofNat_toNat, BitVec.setWidth_eq]

/-- Each instruction's word has the instruction's opcode, which picks the decoder's branch, and its operands as
fields. -/
theorem decodeWord_encode (i : Instr) : decodeWord (encode i) = .ok i := by
  cases i with
  | nop | cls | ret => rfl
  | jp nnn =>
    obtain ⟨hop, hnnn⟩ := fields_of_toNat_nnn (encode_jp_toNat nnn)
    rw [decodeWord_of_opOf_1 hop, hnnn]
  | ldVxKk x kk => exact decodeWord_of_toNat_6xkk (encode_ldVxKk_toNat x kk)
  | addVxKk x kk => exact decodeWord_of_toNat_7xkk (encode_addVxKk_toNat x kk)
  | ldINnn nnn => exact decodeWord_of_toNat_Annn (encode_ldINnn_toNat nnn)
  | drw x y n =>
    obtain ⟨hop, hx, hy, hn⟩ := fields_of_toNat_xyn (encode_drw_toNat x y n)
    rw [decodeWord_of_opOf_D hop, hx, hy, hn]

/-- Settles O1: the word's two bytes put together are the word, and the decoder reads it back. -/
theorem decodeOfEncode : Obligations.DecodeOfEncode := by
  intro i rest
  refine ⟨decodeWord_encode i, ?_⟩
  rw [decodeBytes_bytesOfWord, decodeWord_encode]

/-- The operands the decoder cuts out of a word fill the word: nothing of it is lost. -/
theorem encode_of_decodeWord {w : Word} {i : Instr} (h : decodeWord w = .ok i) : encode i = w := by
  have hw := w.isLt
  apply BitVec.eq_of_toNat_eq
  rw [decoderFollowsDispatch w] at h
  split_ifs at h with h0 hnop hcls hret h1 h6 h7 hA hD <;> cases h
  · exact hnop.symm
  · exact hcls.symm
  · exact hret.symm
  · rw [encode_jp_toNat, BitVec.toNat_ofNat]
    omega
  · rw [encode_ldVxKk_toNat, BitVec.toNat_ofNat, BitVec.toNat_ofNat]
    omega
  · rw [encode_addVxKk_toNat, BitVec.toNat_ofNat, BitVec.toNat_ofNat]
    omega
  · rw [encode_ldINnn_toNat, BitVec.toNat_ofNat]
    omega
  · rw [encode_drw_toNat, BitVec.toNat_ofNat, BitVec.toNat_ofNat, BitVec.toNat_ofNat]
    omega

/-- Settles O2: the encoder puts the fields back where the decoder found them. -/
theorem encodeOfDecode : Obligations.EncodeOfDecode := fun _ _ => encode_of_decodeWord

/-! ## The rows of the table -/

/-- The word of an instruction of each variant matches its row. -/
theorem rowMatch_statement (i : Instr) : RowMatch.Statement i := by
  cases i with
  | nop => exact RowMatch.nop
  | cls => exact RowMatch.cls
  | ret => exact RowMatch.ret
  | jp nnn => exact RowMatch.jp nnn
  | ldVxKk x kk => exact RowMatch.ldVxKk x kk
  | addVxKk x kk => exact RowMatch.addVxKk x kk
  | ldINnn nnn => exact RowMatch.ldINnn nnn
  | drw x y n => exact RowMatch.drw x y n

/-- Every variant has one row in the table. -/
theorem eq_rowOf_of_mem_opcodeTable {row : Row} (h : row ∈ opcodeTable) : row = rowOf row.variant := by
  revert row
  decide

/-- A word that matches a variant's row decodes to that variant (R66 to R69). -/
theorem exists_decodeWord_of_matches {v : Variant} {w : Word} (h : w &&& (rowOf v).mask = (rowOf v).pattern) :
    ∃ i, decodeWord w = .ok i ∧ i.variant = v := by
  obtain ⟨nop, cls, ret⟩ := fixedWordsDecode w
  obtain ⟨jp, ldINnn, ldVxKk, addVxKk, drw⟩ := fieldWordsDecode w
  cases v with
  | nop => exact ⟨_, nop.mpr h, rfl⟩
  | cls => exact ⟨_, cls.mpr h, rfl⟩
  | ret => exact ⟨_, ret.mpr h, rfl⟩
  | jp => exact ⟨_, jp h, rfl⟩
  | ldVxKk => exact ⟨_, ldVxKk h, rfl⟩
  | addVxKk => exact ⟨_, addVxKk h, rfl⟩
  | ldINnn => exact ⟨_, ldINnn h, rfl⟩
  | drw => exact ⟨_, drw h, rfl⟩

/-- Settles O4: a word that decodes is its instruction's own word, and that matches the row of the variant. -/
theorem tableRowsGiveTheVariant : Obligations.TableRowsGiveTheVariant := by
  intro row hrow w
  rw [eq_rowOf_of_mem_opcodeTable hrow, rowOf_variant]
  refine ⟨exists_decodeWord_of_matches, ?_⟩
  rintro ⟨i, hd, hv⟩
  rw [← hv, ← encode_of_decodeWord hd]
  exact beq_iff_eq.mp (rowMatch_statement i)

/-! ## Words that decode to nothing -/

/-- R70: a rejection names its word. -/
theorem eq_decodeFailure_of_decodeWord {w : Word} {r : DecodeReject} (h : decodeWord w = .error r) :
    r = .decodeFailure w := by
  rw [decoderFollowsDispatch w] at h
  split_ifs at h <;> cases h <;> rfl

/-- Settles O7: the primary opcode 0 leaves the gaps between the three fixed words, and the ten opcodes without a row
fail whole. -/
theorem unmatchedWordsFailToDecode : Obligations.UnmatchedWordsFailToDecode := by
  refine fun w => ⟨?_, fun _ => eq_decodeFailure_of_decodeWord⟩
  have hw := w.isLt
  rw [decoderFollowsDispatch w]
  simp only [List.mem_cons, List.not_mem_nil, or_false]
  split_ifs with h0 hnop hcls hret h1 h6 h7 hA hD
  all_goals
    simp only [true_iff, false_iff]
    omega

/-- Settles O8: the ten words, computed. -/
theorem specVectorsDecode : Obligations.SpecVectorsDecode := by
  unfold Obligations.SpecVectorsDecode
  decide

/-- The check on a written address (R61) is the bound of its 12 bits. -/
theorem wellFormed_jp_iff (k : Nat) : (AsmLine.mk .jp [k]).wellFormed = true ↔ k ≤ 0xFFF := by
  simp [AsmLine.wellFormed, Variant.fieldWidths, operandsFit, fitsField]
  omega

/-- Settles O10: three nibbles side by side are 12 bits, and the line's check is that bound. -/
theorem datumFitsTwelveBits : Obligations.DatumFitsTwelveBits :=
  ⟨fun a b c => ⟨datum_toNat a b c, Nat.le_of_lt_succ (datum a b c).isLt⟩,
    fun k => (toInstr_isSome_iff _).trans (wellFormed_jp_iff k)⟩

end Sys2Proof

/-! SUPPORT. PROOFS for 20_memory.md and 70_reset_and_hazards.md: the canonical form of memory, the bounds check of a
read (R42), and what LOAD copies (R163). -/

namespace Sys2Proof.Machine

open Sys2Proof

/-! ## The canonical form is canonical -/

@[simp] theorem sparseRead_cons_self {α : Type} (d : α) (k : Nat) (x : α) (m : List (Nat × α)) :
    sparseRead d ((k, x) :: m) k = x := if_pos rfl

section Sparse

variable {α : Type} [DecidableEq α] {d : α} {hi lo : Nat}

/-- The parts of the form of a list with a first entry. -/
theorem sparseWf_cons_iff {k : Nat} {x : α} {m : List (Nat × α)} :
    sparseWf d hi lo ((k, x) :: m) = true ↔ lo ≤ k ∧ k < hi ∧ x ≠ d ∧ sparseWf d hi (k + 1) m = true := by
  simp [sparseWf, and_assoc]

/-- The first entry is the lowest key with a value: of two lists that read the same, neither begins after the other. -/
theorem first_key_le_of_sparseRead_eq {lo' k : Nat} {x : α} {m m' : List (Nat × α)} (hx : x ≠ d)
    (h' : sparseWf d hi lo' m' = true) (heq : ∀ a, sparseRead d ((k, x) :: m) a = sparseRead d m' a) : lo' ≤ k := by
  by_contra hk
  exact hx ((sparseRead_cons_self d k x m).symm.trans ((heq k).trans (sparseRead_below h' (by omega))))

/-- Two lists in the form that read the same everywhere are the same list. -/
theorem eq_of_sparseRead_eq {lo' : Nat} {m m' : List (Nat × α)} (h : sparseWf d hi lo m = true)
    (h' : sparseWf d hi lo' m' = true) (heq : ∀ a, sparseRead d m a = sparseRead d m' a) : m = m' := by
  induction m generalizing lo lo' m' with
  | nil =>
    cases m' with
    | nil => rfl
    | cons e' m' =>
      obtain ⟨k', x'⟩ := e'
      obtain ⟨-, -, hx', -⟩ := sparseWf_cons_iff.mp h'
      exact absurd ((heq k').trans (sparseRead_cons_self d k' x' m')).symm hx'
  | cons e m ih =>
    obtain ⟨k, x⟩ := e
    obtain ⟨-, hk, hx, hm⟩ := sparseWf_cons_iff.mp h
    cases m' with
    | nil => exact absurd ((sparseRead_cons_self d k x m).symm.trans (heq k)) hx
    | cons e' m' =>
      obtain ⟨k', x'⟩ := e'
      obtain ⟨-, hk', hx', hm'⟩ := sparseWf_cons_iff.mp h'
      obtain rfl : k = k' := by
        refine Nat.le_antisymm ?_ ?_
        · exact first_key_le_of_sparseRead_eq hx' (sparseWf_cons_iff.mpr ⟨le_rfl, hk, hx, hm⟩) fun a => (heq a).symm
        · exact first_key_le_of_sparseRead_eq hx (sparseWf_cons_iff.mpr ⟨le_rfl, hk', hx', hm'⟩) heq
      obtain rfl : x = x' := by simpa using heq k
      rw [ih hm hm' fun a => ?_]
      by_cases ha : a = k
      · rw [ha, sparseRead_below hm (Nat.lt_succ_self k), sparseRead_below hm' (Nat.lt_succ_self k)]
      · simpa [sparseRead, ha] using heq a

end Sparse

/-- Settles O44: the entries are found one by one, each at the lowest address that reads as no 0. -/
theorem equalReadsEqualMemories : Obligations.EqualReadsEqualMemories := fun _ _ => eq_of_sparseRead_eq

/-! ## Reads -/

/-- Settles O31: the range checked is `addr` alone, or `addr` and `addr + 1`. -/
theorem readsCheckBounds : Obligations.ReadsCheckBounds := by
  intro m addr
  constructor
  · rw [Memory.read1, firstOutside_eq]
    by_cases h : 4095 < addr
    · rw [if_neg (by omega), if_pos h, Nat.max_eq_left h]
    · rw [if_pos (by omega), if_neg h]
  · rw [Memory.read2, firstOutside_eq]
    by_cases h : 4095 < addr
    · rw [if_neg (by omega), if_pos h, Nat.max_eq_left h]
    · rw [if_neg h]
      by_cases h' : 4095 < addr + 1
      · rw [if_neg (by omega), if_pos h', Nat.max_eq_right (by omega), show addr + 1 = 4096 by omega]
      · rw [if_pos (by omega), if_neg h']
        rfl

/-! ## LOAD -/

/-- Every byte after LOAD (R163): the image where it lies, and the old byte elsewhere. -/
theorem readByte_loadImage {s : State} (h : s.mem.wf = true) (bytes : List Byte) (a : Nat) :
    (s.loadImage bytes).readByte a =
      if 0x200 ≤ a ∧ a - 0x200 < min bytes.length 3584 then bytes.getD (a - 0x200) 0#8 else s.readByte a := by
  have hlen : (bytes.take Config.maxProgram).length = min bytes.length 3584 := by
    rw [List.length_take, Nat.min_comm]
    rfl
  simp only [State.readByte, loadImage_mem, Config.programBase]
  split_ifs with ha
  · obtain ⟨hbase, hk⟩ := ha
    have hin := byte_writeBytes_inside h 0x200 (bytes.take Config.maxProgram) (hlen ▸ hk) (by omega)
    rw [Nat.add_sub_cancel' hbase] at hin
    rw [hin, List.getD_eq_getElem?_getD, List.getD_eq_getElem?_getD, List.getElem?_take_of_lt]
    simp only [Config.maxProgram]
    omega
  · exact byte_writeBytes_outside h _ _ (by omega)

theorem transact_load_of_not_started {s : State} (h : s.started = false) (bytes : List Byte) :
    transact (.load bytes) s = .next (s.loadImage bytes) := by
  simp [transact, h]

theorem transact_load_of_started {s : State} (h : s.started = true) (bytes : List Byte) :
    transact (.load bytes) s = .refused .loadAfterStart := by
  simp [transact, h]

/-- Settles O48: `started` decides, and the copy writes memory alone. -/
theorem loadCopiesAndTruncates : Obligations.LoadCopiesAndTruncates := fun s bytes =>
  ⟨fun hs hm => ⟨s.loadImage bytes, transact_load_of_not_started hs bytes, readByte_loadImage hm bytes, rfl⟩,
    fun hs => transact_load_of_started hs bytes⟩

/-- Settles O47: RESET leaves `PC` at 0x200, where LOAD puts the image's first two bytes. -/
theorem firstFetchIsProgramStart : Obligations.FirstFetchIsProgramStart := by
  intro p b0 b1 rest
  have hread := readByte_loadImage (resetWith_mem_wf p) (b0 :: b1 :: rest)
  have h0 : ((State.resetWith p).loadImage (b0 :: b1 :: rest)).readByte 0x200 = b0 := by simp [hread]
  have h1 : ((State.resetWith p).loadImage (b0 :: b1 :: rest)).readByte (0x200 + 1) = b1 := by simp [hread]
  have hpc : ((State.resetWith p).loadImage (b0 :: b1 :: rest)).pc.toNat = 0x200 := rfl
  refine ⟨_, wordOfBytes b0 b1, transact_load_of_not_started rfl _, ⟨rfl, ?_, ?_⟩, toNat_wordOfBytes b0 b1⟩
  · rw [hpc]
    decide
  · rw [hpc, h0, h1, toNat_wordOfBytes]

end Sys2Proof.Machine

/-! SUPPORT. PROOFS for 40_arith_control.md and 41_draw.md: ClearScreen, Return, Jump (R82 to R84) and Draw
(R100 to R109). -/

namespace Sys2Proof.Machine

open Sys2Proof

/-! ## What the rules answer -/

@[simp] theorem exec_cls (s : State) : exec .cls s = .next (s.setFb blankFrame) := rfl

@[simp] theorem exec_ret (s : State) : exec .ret s = .next (raiseFault .unimplemented .ret 0x0000#16 s) := rfl

@[simp] theorem exec_jp (nnn : Datum) (s : State) : exec (.jp nnn) s = .next (s.setPc (zextDatum nnn)) := rfl

/-! ## Frames -/

/-- A fault entry inside a rule leaves everything but `PC` and the fault register (60_exceptions.md R145). -/
theorem raiseFault_frame (code : FaultCode) (i : Instr) (addr : Word) (s : State) :
    SameRegsBut [] s (raiseFault code i addr s) ∧ (raiseFault code i addr s).i = s.i ∧
      SameScreen s (raiseFault code i addr s) ∧ SameMemory s (raiseFault code i addr s) ∧
      SameReserved s (raiseFault code i addr s) :=
  ⟨fun _ _ => rfl, rfl, fun _ _ => rfl, fun _ => rfl, ⟨rfl, rfl, rfl, rfl, rfl, rfl, rfl, rfl⟩⟩

/-- Draw's one register is `VF`. -/
theorem drawSprite_sameRegsBut (x y n : Nibble) (s : State) : SameRegsBut [15#4] s (drawSprite x y n s) :=
  setV_sameRegsBut (s.setFb _) flagReg _

theorem drawSprite_completes (x y n : Nibble) (s : State) : Completes s (drawSprite x y n s) :=
  ⟨⟨rfl, rfl, rfl, rfl, rfl, rfl, rfl, rfl⟩, rfl, rfl⟩

/-! ## ClearScreen and Jump -/

/-- Settles O12: the blank framebuffer has no lit pixel, and the rule writes nothing else. -/
theorem clearScreenUnlightsEveryPixel : Obligations.ClearScreenUnlightsEveryPixel :=
  ⟨rfl, fun s => ⟨_, exec_cls s, pixelAt_blankFrame, fun _ _ => rfl, rfl, rfl, rfl, fun _ => rfl,
    ⟨rfl, rfl, rfl, rfl, rfl, rfl, rfl, rfl⟩, rfl⟩⟩

/-- Settles O14: the STEP's PC is the rule's, and 0x1234 is the word of `jp 0x234`. -/
theorem jumpSetsPc : Obligations.JumpSetsPc := by
  constructor
  · intro nnn s
    exact ⟨_, exec_jp nnn s, zextDatum_toNat nnn, fun _ _ => rfl, rfl, rfl, fun _ _ => rfl, fun _ => rfl,
      ⟨rfl, rfl, rfl, rfl, rfl, rfl, rfl, rfl⟩⟩
  · intro s hf
    exact ⟨_, step_executes hf.1 (fetch_of_fetches hf) (decodeWord_encode (.jp 0x234#12)) (exec_jp _ _),
      finish_pc (s.markStarted.advance.setPc _) _ _⟩

/-! ## Draw: what a pixel and the flag hold afterwards -/

section Sprite

variable {s : State} {x y n : Nibble} {sx sy : Nat}

/-- The dots of a Draw, at the positions and with the bits Safety.lean tells. -/
theorem mem_spriteDots_iff {r : Fin 32} {c : Fin 64} {b : Bool} :
    ⟨r, c, b⟩ ∈ spriteDots sx sy (spriteRow s) n.toNat ↔
      ∃ i j, i < n.toNat ∧ j < 8 ∧ LandsOn sx sy i j r c ∧ b = SpriteBit s i j := by
  simp only [mem_spriteDots, Dot.mk.injEq, Fin.ext_iff, and_assoc]
  rfl

/-- A sprite has at most 15 rows, so no pixel is visited twice (41_draw.md R108). -/
theorem drawDots_apart : (spriteDots sx sy (spriteRow s) n.toNat).Pairwise Apart :=
  spriteDots_apart sx sy _ (by have := n.isLt; omega)

theorem pixel_drawSprite_of_landsOn (ho : drawOrigin x y s = (sx, sy)) {i j : Nat} {r : Fin 32} {c : Fin 64}
    (hi : i < n.toNat) (hj : j < 8) (hl : LandsOn sx sy i j r c) :
    (drawSprite x y n s).pixel r c = (s.pixel r c ^^ SpriteBit s i j) := by
  have hd : ⟨r, c, SpriteBit s i j⟩ ∈ spriteDots sx sy (spriteRow s) n.toNat :=
    mem_spriteDots_iff.mpr ⟨i, j, hi, hj, hl, rfl⟩
  have hxor := pixel_plotDots_on _ { fb := s.fb, vf := 0#8 } drawDots_apart hd
  rwa [State.pixel, drawSprite_fb, ho]

theorem pixel_drawSprite_of_not_landsOn (ho : drawOrigin x y s = (sx, sy)) {r : Fin 32} {c : Fin 64}
    (h : ∀ i j, i < n.toNat → j < 8 → ¬ LandsOn sx sy i j r c) : (drawSprite x y n s).pixel r c = s.pixel r c := by
  rw [State.pixel, drawSprite_fb, ho]
  refine pixel_plotDots_outside _ _ r c ?_
  rintro d hd ⟨rfl, rfl⟩
  obtain ⟨i, j, hi, hj, hl, -⟩ := mem_spriteDots_iff.mp hd
  exact h i j hi hj hl

/-- A lit sprite pixel met a lit screen pixel (41_draw.md R105). -/
def Collides (s : State) (n : Nibble) (sx sy : Nat) : Prop :=
  ∃ i j r c, i < n.toNat ∧ j < 8 ∧ LandsOn sx sy i j r c ∧ SpriteBit s i j = true ∧ s.pixel r c = true

theorem collides_iff_dot :
    Collides s n sx sy ↔
      ∃ d ∈ spriteDots sx sy (spriteRow s) n.toNat, d.bit = true ∧ pixelAt s.fb d.r d.c = true := by
  constructor
  · rintro ⟨i, j, r, c, hi, hj, hl, hb, hp⟩
    exact ⟨⟨r, c, _⟩, mem_spriteDots_iff.mpr ⟨i, j, hi, hj, hl, rfl⟩, hb, hp⟩
  · rintro ⟨d, hd, hb, hp⟩
    obtain ⟨i, j, hi, hj, hl, he⟩ := mem_spriteDots_iff.mp hd
    exact ⟨i, j, d.r, d.c, hi, hj, hl, he ▸ hb, hp⟩

theorem flag_drawSprite_of_collides (ho : drawOrigin x y s = (sx, sy)) (h : Collides s n sx sy) :
    (drawSprite x y n s).getV 15#4 = 1#8 := by
  rw [drawSprite_vf, ho]
  exact (vf_plotDots _ _ drawDots_apart).1 (collides_iff_dot.mp h)

theorem flag_drawSprite_of_not_collides (ho : drawOrigin x y s = (sx, sy)) (h : ¬ Collides s n sx sy) :
    (drawSprite x y n s).getV 15#4 = 0#8 := by
  rw [drawSprite_vf, ho]
  exact (vf_plotDots _ _ drawDots_apart).2 (mt collides_iff_dot.mpr h)

end Sprite

/-- Settles O18: the loops plot dots that are apart, each once. -/
theorem drawXorsFootprint : Obligations.DrawXorsFootprint := by
  intro x y n s sx sy hn hin hst
  have ho := drawOrigin_of_startsAt hst
  exact ⟨_, execDrw_inside x y hn hin, fun _ _ _ _ => pixel_drawSprite_of_landsOn ho,
    fun _ _ => pixel_drawSprite_of_not_landsOn ho⟩

/-- Settles O19: the flag rises at a dot that meets a lit pixel and never falls after that. -/
theorem drawCollisionFlag : Obligations.DrawCollisionFlag := by
  intro x y n s sx sy hn hin hst
  have ho := drawOrigin_of_startsAt hst
  exact ⟨_, execDrw_inside x y hn hin, flag_drawSprite_of_collides ho, flag_drawSprite_of_not_collides ho⟩

/-- Settles O20: the drawing ends in one write of the framebuffer and one of `VF`. -/
theorem drawFrame : Obligations.DrawFrame := by
  intro x y n s hn hin
  obtain ⟨hreserved, -, hfault⟩ := drawSprite_completes x y n s
  exact ⟨_, execDrw_inside x y hn hin, drawSprite_sameRegsBut x y n s, rfl, rfl, hfault, fun _ => rfl, hreserved⟩

/-! ## Draw twice -/

/-- A register but `VF` reads the same before and after Draw's `VF <- 0`, so the order of the reads does not matter. -/
theorem drawOrigin_of_ne_flag {x y : Nibble} (s : State) (hx : x ≠ 15#4) (hy : y ≠ 15#4) :
    drawOrigin x y s = (startColumn s x, startRow s y) := by
  apply drawOrigin_of_startsAt
  unfold StartsAt
  rw [if_neg hx, if_neg hy, ite_self]
  exact ⟨rfl, rfl⟩

/-- For x, y ≠ 15 the second of two equal Draws starts where the first did. -/
theorem drawOrigin_drawSprite {x y : Nibble} (n : Nibble) (s : State) (hx : x ≠ 15#4) (hy : y ≠ 15#4) :
    drawOrigin x y (drawSprite x y n s) = drawOrigin x y s := by
  rw [drawOrigin_of_ne_flag _ hx hy, drawOrigin_of_ne_flag _ hx hy, startColumn, startRow,
    drawSprite_sameRegsBut x y n s x (by simpa using hx), drawSprite_sameRegsBut x y n s y (by simpa using hy)]
  rfl

/-- What a Draw with x, y ≠ 15 does when it is done again: each pixel of the footprint is XORed with the same bit. -/
theorem pixel_drawSprite_twice {x y : Nibble} (n : Nibble) (s : State) (hx : x ≠ 15#4) (hy : y ≠ 15#4) :
    SameScreen s (drawSprite x y n (drawSprite x y n s)) := by
  intro r c
  have ho' := drawOrigin_drawSprite n s hx hy
  by_cases h : ∃ i j, i < n.toNat ∧ j < 8 ∧ LandsOn (drawOrigin x y s).1 (drawOrigin x y s).2 i j r c
  · obtain ⟨i, j, hi, hj, hl⟩ := h
    rw [pixel_drawSprite_of_landsOn ho' hi hj hl, pixel_drawSprite_of_landsOn rfl hi hj hl,
      show SpriteBit (drawSprite x y n s) i j = SpriteBit s i j from rfl, Bool.xor_assoc, Bool.xor_self, Bool.xor_false]
  · have hoff : ∀ i j, i < n.toNat → j < 8 → ¬ LandsOn (drawOrigin x y s).1 (drawOrigin x y s).2 i j r c :=
      fun i j hi hj hl => h ⟨i, j, hi, hj, hl⟩
    rw [pixel_drawSprite_of_not_landsOn ho' hoff, pixel_drawSprite_of_not_landsOn rfl hoff]

/-- After a Draw the sprite meets a lit pixel exactly where it lit one. -/
theorem collides_drawSprite_iff (x y n : Nibble) (s : State) :
    Collides (drawSprite x y n s) n (drawOrigin x y s).1 (drawOrigin x y s).2 ↔
      ∃ r c, s.pixel r c = false ∧ (drawSprite x y n s).pixel r c = true := by
  constructor
  · rintro ⟨i, j, r, c, hi, hj, hl, hb, hp⟩
    refine ⟨r, c, ?_, hp⟩
    rw [pixel_drawSprite_of_landsOn rfl hi hj hl, show SpriteBit s i j = true from hb] at hp
    simpa using hp
  · rintro ⟨r, c, hs, ht⟩
    by_contra hno
    have hoff : ∀ i j, i < n.toNat → j < 8 → ¬ LandsOn (drawOrigin x y s).1 (drawOrigin x y s).2 i j r c := by
      intro i j hi hj hl
      have hb := pixel_drawSprite_of_landsOn rfl hi hj hl
      rw [hs, ht, Bool.false_xor] at hb
      exact hno ⟨i, j, r, c, hi, hj, hl, hb.symm, ht⟩
    rw [pixel_drawSprite_of_not_landsOn rfl hoff, hs] at ht
    cases ht

/-- Settles O23: the second Draw has the first one's start and sprite, so it XORs each pixel with the same bit and meets
a lit pixel where the first lit one. -/
theorem drawTwiceRestoresScreen : Obligations.DrawTwiceRestoresScreen := by
  intro x y n s hx hy hn hin
  have ho' := drawOrigin_drawSprite n s hx hy
  exact ⟨_, _, execDrw_inside x y hn hin, execDrw_inside x y hn hin, pixel_drawSprite_twice n s hx hy,
    fun h => flag_drawSprite_of_collides ho' ((collides_drawSprite_iff x y n s).mpr h),
    fun h => flag_drawSprite_of_not_collides ho' (mt (collides_drawSprite_iff x y n s).mp h)⟩

/-! ## Draw that draws nothing -/

/-- Settles O21: n = 0 takes the policy's branch before any address is looked at. -/
theorem drawOfHeightZero : Obligations.DrawOfHeightZero := by
  refine fun x y s => ⟨fun hp => ?_, fun hp => ?_⟩
  · exact ⟨_, execDrw_zero_fault x y hp, rfl, rfl, encode_drw_toNat x y 0#4, rfl, rfl, raiseFault_frame _ _ _ s⟩
  · exact ⟨_, execDrw_zero_empty x y hp, getV_setV_self s _ _, setV_frame s flagReg _⟩

/-- The address a bounds fault records fits its 16 bits. -/
theorem outsideAddr_toNat (a : Word) : (BitVec.ofNat 16 (max a.toNat 4096)).toNat = max a.toNat 4096 := by
  have := a.isLt
  rw [BitVec.toNat_ofNat]
  omega

/-- Settles O22: the whole sprite is checked before any change. -/
theorem drawOutsideMemoryFaults : Obligations.DrawOutsideMemoryFaults := by
  intro x y n s hn hout
  refine ⟨_, execDrw_outside x y hn hout, rfl, rfl, encode_drw_toNat x y n, ?_, rfl, raiseFault_frame _ _ _ s⟩
  refine (outsideAddr_toNat s.i).trans ?_
  split <;> omega

end Sys2Proof.Machine

/-! SUPPORT. PROOFS for 45_step_and_interface.md and 60_exceptions.md: who writes registers and pixels, how a STEP can
end (R120), and the fault it stops at (R141 to R147). -/

namespace Sys2Proof.Machine

open Sys2Proof

/-! ## Who writes a register, `I` and the screen -/

/-- What a Draw can write, whichever of its four cases it takes. -/
theorem execDrw_frame {x y n : Nibble} {s t : State} (h : execDrw x y n s = .next t) :
    SameRegsBut [15#4] s t ∧ t.i = s.i ∧ (n = 0#4 → t.fb = s.fb) := by
  rcases execDrw_cases x y n s with ⟨-, -, he⟩ | ⟨-, -, he⟩ | ⟨-, -, he⟩ | ⟨hn, -, he⟩ <;>
    obtain rfl := Host.Outcome.next.inj (he.symm.trans h)
  · exact ⟨fun _ _ => rfl, rfl, fun _ => rfl⟩
  · exact ⟨setV_sameRegsBut s flagReg _, rfl, fun _ => rfl⟩
  · exact ⟨fun _ _ => rfl, rfl, fun _ => rfl⟩
  · exact ⟨drawSprite_sameRegsBut x y n s, rfl, fun h0 => absurd h0 hn⟩

/-- Settles O24: a register write leaves every other register alone, and Draw's one register is `VF`. -/
theorem registerWriters : Obligations.RegisterWriters := by
  intro i s t y h hne
  have target {x : Nibble} {b : Byte} (ht : s.setV x b = t) : y = x :=
    by_contra fun hyx => hne (ht ▸ getV_setV_other s b hyx)
  cases i with
  | nop | cls | ret | jp | ldINnn =>
    obtain rfl := Host.Outcome.next.inj h
    exact absurd rfl hne
  | ldVxKk x kk =>
    obtain rfl := target (Host.Outcome.next.inj h)
    exact .inl ⟨kk, rfl⟩
  | addVxKk x kk =>
    obtain rfl := target (Host.Outcome.next.inj h)
    exact .inr (.inl ⟨kk, rfl⟩)
  | drw a b n =>
    obtain ⟨hregs, -, -⟩ := execDrw_frame h
    refine .inr (.inr ⟨by_contra fun hy => hne (hregs y ?_), a, b, n, rfl⟩)
    rwa [List.mem_singleton]

/-- Settles O25: of the rules only SetIndex writes the field, and no fault entry does. -/
theorem indexWriters : Obligations.IndexWriters := by
  intro i s t h hne
  cases i with
  | nop | cls | ret | jp | ldVxKk | addVxKk =>
    obtain rfl := Host.Outcome.next.inj h
    exact absurd rfl hne
  | ldINnn nnn =>
    obtain rfl := Host.Outcome.next.inj h
    exact ⟨nnn, rfl, zextDatum_toNat nnn⟩
  | drw x y n =>
    obtain ⟨-, hi, -⟩ := execDrw_frame h
    exact absurd hi hne

/-- The rules that can write the framebuffer (10_state.md R32). -/
theorem exec_fb {i : Instr} {s t : State} (h : exec i s = .next t) :
    t.fb = s.fb ∨ i = .cls ∨ ∃ x y n, n ≠ 0#4 ∧ i = .drw x y n := by
  cases i with
  | nop | ret | jp | ldVxKk | addVxKk | ldINnn =>
    obtain rfl := Host.Outcome.next.inj h
    exact .inl rfl
  | cls => exact .inr (.inl rfl)
  | drw x y n =>
    obtain ⟨-, -, hfb⟩ := execDrw_frame h
    by_cases hn : n = 0#4
    · exact .inl (hfb hn)
    · exact .inr (.inr ⟨x, y, n, hn, rfl⟩)

/-! ## How a STEP can end -/

/-- A STEP that takes a fault: `started` is set, the fault register names the `PC` fetched from, and the result is `Err`
(60_exceptions.md R144, R145). -/
def State.stopAt (s : State) (code : FaultCode) (word addr : Word) : State :=
  (takeFault code s.pc word addr s.markStarted).reportFault

theorem fetchFault_eq_stopAt (s : State) (a : Nat) :
    s.fetchFault a = s.stopAt .memoryBounds 0#16 (BitVec.ofNat 16 a) := rfl

theorem decodeFault_eq_stopAt (s : State) (w : Word) : s.decodeFault w = s.stopAt .decodeFailure w 0#16 := rfl

/-- A fault inside a rule undoes the advance of `PC`, so it is no different from one before it. -/
theorem finish_takeFault_eq_stopAt (i : Instr) (before : Frame) (s : State) {code : FaultCode} (word addr : Word)
    (h : code ≠ .none) :
    State.finish i before (takeFault code s.pc word addr s.markStarted.advance) = s.stopAt code word addr :=
  finish_err (takeFault code s.pc word addr s.markStarted.advance) h

/-- What a STEP that takes a fault leaves alone (60_exceptions.md R145). -/
theorem stopAt_frame (s : State) (code : FaultCode) (word addr : Word) :
    SameArchitecture s (s.stopAt code word addr) ∧ SameMemory s (s.stopAt code word addr) ∧
      (s.stopAt code word addr).started = true ∧ (s.stopAt code word addr).params = s.params ∧
      (s.stopAt code word addr).keys = s.keys := by
  refine ⟨?_, fun _ => rfl, rfl, rfl, rfl⟩
  constructor <;> simp [State.stopAt, State.reportFault]

/-- The fault a STEP raises (60_exceptions.md R141, R143): at the fetch, at the decoding, or inside the rule. -/
inductive StepRaises (s : State) : FaultCode → Word → Word → Prop
  | fetch (hp : 4095 < s.pc.toNat + 1) : StepRaises s .memoryBounds 0#16 (BitVec.ofNat 16 (max s.pc.toNat 4096))
  | decode {w : Word} {r : DecodeReject} (hf : s.fetches w) (hd : decodeWord w = .error r) :
    StepRaises s .decodeFailure w 0#16
  | rule {w : Word} {i : Instr} {code : FaultCode} {addr : Word} (hf : s.fetches w) (hd : decodeWord w = .ok i)
    (hc : CanRaise i s code addr) : StepRaises s code w addr

/-- The three ends of a STEP: it only reports a fault recorded before, it takes a fault, or its instruction
completes. -/
inductive StepEnds (s : State) : State → Prop
  | sticks (h : s.fault.code ≠ .none) : StepEnds s s.reportFault
  | stops {code : FaultCode} {word addr : Word} (h : s.fault.code = .none) (hr : StepRaises s code word addr) :
    StepEnds s (s.stopAt code word addr)
  | completes {w : Word} {i : Instr} {u : State} (hf : s.fetches w) (hd : decodeWord w = .ok i)
    (he : exec i s.markStarted.advance = .next u) (hu : Completes s.markStarted.advance u) :
    StepEnds s (State.finish i s.fb u)

theorem canRaise_code_ne_none {i : Instr} {s : State} {code : FaultCode} {addr : Word} (h : CanRaise i s code addr) :
    code ≠ .none := by
  rcases h with ⟨-, rfl, -⟩ | ⟨-, -, -, -, rfl, -⟩ | ⟨-, -, -, -, -, -, rfl, -⟩ <;> exact FaultCode.noConfusion

/-- Inversion of STEP: whatever state it answers is one of the three ends. -/
theorem stepEnds_of_step {s t : State} (h : step s = .next t) : StepEnds s t := by
  rcases step_cases s with
      ⟨hn, hs⟩ | ⟨h0, hp, -, hs⟩ | ⟨w, r, h0, hp, hf, hd, hs⟩ | ⟨w, i, u, h0, hp, hf, hd, he, hu, hs⟩ <;>
    obtain rfl := Host.Outcome.next.inj (hs.symm.trans h)
  · exact .sticks hn
  · exact .stops h0 (.fetch hp)
  · exact .stops h0 (.decode (fetches_of_fetch h0 hp hf) hd)
  · have hf' := fetches_of_fetch h0 hp hf
    rcases hu with hu | ⟨code, addr, hc, rfl⟩
    · exact .completes hf' hd he hu
    · rw [finish_takeFault_eq_stopAt i s.fb s _ addr (canRaise_code_ne_none hc), encode_of_decodeWord hd]
      exact .stops h0 (.rule hf' hd hc)

/-- A rule that completes leaves a clear fault register clear. -/
theorem completes_fault_code {s u : State} {w : Word} (hf : s.fetches w) (hu : Completes s.markStarted.advance u) :
    u.fault.code = .none := by
  rw [hu.fault]
  exact hf.1

/-! ## What a STEP leaves alone -/

/-- Settles O27: of what the ends of a STEP write, none is in memory or reserved. -/
theorem stepStoresNothing : Obligations.StepStoresNothing := by
  intro s t h
  cases stepEnds_of_step h with
  | sticks => exact ⟨fun _ => rfl, rfl, rfl, rfl, rfl, rfl, rfl, rfl⟩
  | stops => exact ⟨fun _ => rfl, rfl, rfl, rfl, rfl, rfl, rfl, rfl⟩
  | @completes _ i u _ _ _ hu =>
    obtain ⟨hr, hm, -⟩ := hu
    have hmem : (State.finish i s.fb u).mem = s.mem := (finish_mem u i s.fb).trans hm
    exact ⟨fun a => congrArg (Memory.byte · a) hmem, hmem, (finish_sp _ _ _).trans hr.sp,
      (finish_stack _ _ _).trans hr.stack, (finish_dt _ _ _).trans hr.dt, (finish_st _ _ _).trans hr.st,
      (finish_params _ _ _).trans hr.params, (finish_keys _ _ _).trans hr.keys⟩

/-- Settles O26: a STEP that ends in a fault changes no pixel, and only two rules that complete do. -/
theorem screenWriters : Obligations.ScreenWriters := by
  intro s t r c h hne
  cases stepEnds_of_step h with
  | sticks => exact absurd rfl hne
  | stops => exact absurd rfl hne
  | completes hf hd he _ =>
    refine ⟨_, hf, ?_⟩
    rcases exec_fb he with hfb | rfl | ⟨x, y, n, hn, rfl⟩
    · exact absurd (congrArg (pixelAt · r c) ((finish_fb _ _ _).trans hfb)) hne
    · exact .inl hd
    · exact .inr ⟨x, y, n, hn, hd⟩

/-! ## Faults -/

/-- Settles O35: of the three ends of a STEP only one records a fault, and that one has this frame. -/
theorem faultingStepChangesNothing : Obligations.FaultingStepChangesNothing := by
  intro s t h0 h hne
  cases stepEnds_of_step h with
  | sticks hn => exact absurd h0 hn
  | stops =>
    obtain ⟨harch, hmem, hstarted, hparams, hkeys⟩ := stopAt_frame s _ _ _
    exact ⟨harch, hmem, rfl, hstarted, hparams, hkeys, rfl⟩
  | completes hf _ _ hu =>
    rw [finish_fault] at hne
    exact absurd (completes_fault_code hf hu) hne

/-- Settles O45: none of the faults a STEP raises has that code. -/
theorem rangeViolationNeverRaised : Obligations.RangeViolationNeverRaised := by
  intro s t h hcode
  cases stepEnds_of_step h with
  | sticks => exact hcode
  | stops _ hr =>
    cases hr with
    | fetch => cases hcode
    | decode => cases hcode
    | rule _ _ hc =>
      rcases hc with ⟨-, rfl, -⟩ | ⟨-, -, -, -, rfl, -⟩ | ⟨-, -, -, -, -, -, rfl, -⟩ <;> cases hcode
  | completes hf _ _ hu =>
    rw [finish_fault, completes_fault_code hf hu] at hcode
    cases hcode

/-- Settles O13: the rule records `PC - 2`, which within a STEP is the address fetched from. -/
theorem returnRaisesUnimplemented : Obligations.ReturnRaisesUnimplemented := by
  refine ⟨rfl, fun s => ⟨_, exec_ret s, rfl, rfl, raiseFault_frame _ _ _ s⟩, fun s hf => ?_⟩
  have hs := step_executes hf.1 (fetch_of_fetches hf) rfl (exec_ret _)
  rw [raiseFault, fetchedFrom_advance, finish_takeFault_eq_stopAt _ _ _ _ _ FaultCode.noConfusion] at hs
  obtain ⟨harch, -, hstarted, -⟩ := stopAt_frame s .unimplemented 0x00EE#16 0#16
  exact ⟨_, hs, rfl, harch, hstarted, rfl⟩

/-- Settles O32: the fetch is the first check, and the address is the larger of `PC` and 4096. -/
theorem fetchOutsideMemoryFaults : Obligations.FetchOutsideMemoryFaults := by
  intro s h0 hp
  have hs := step_fetchFault h0 (fetch_outside hp)
  rw [fetchFault_eq_stopAt] at hs
  obtain ⟨harch, hmem, hstarted, hparams, hkeys⟩ :=
    stopAt_frame s .memoryBounds 0#16 (BitVec.ofNat 16 (max s.pc.toNat 4096))
  refine ⟨_, hs, rfl, rfl, rfl, ?_, harch, hmem, hstarted, hparams, hkeys, rfl⟩
  refine (outsideAddr_toNat s.pc).trans ?_
  split <;> omega

/-- Settles O33: the decoder's rejection is the second check, before `PC` moves. -/
theorem undecodableWordFaults : Obligations.UndecodableWordFaults := by
  intro s w r hf hd
  have hs := step_decodeFault hf.1 (fetch_of_fetches hf) hd
  rw [decodeFault_eq_stopAt] at hs
  obtain ⟨harch, hmem, hstarted, hparams, hkeys⟩ := stopAt_frame s .decodeFailure w 0#16
  exact ⟨_, hs, rfl, harch, hmem, hstarted, hparams, hkeys, rfl⟩

/-- Settles O34: STEP is the one transaction besides RESET that could write the fault register, and with a fault
recorded it only reports. -/
theorem faultIsSticky : Obligations.FaultIsSticky := by
  intro s hn
  refine ⟨⟨_, step_faulted hn, ⟨rfl, rfl, rfl, rfl, rfl, rfl, rfl, rfl, rfl⟩, fun _ => rfl, rfl, rfl, rfl, rfl, rfl⟩,
    fun tr t h hr => ?_, _, rfl, rfl⟩
  cases tr with
  | reset => exact absurd rfl hr
  | load bytes =>
    cases hs : s.started with
    | false =>
      obtain rfl := Host.Outcome.next.inj ((transact_load_of_not_started hs bytes).symm.trans h)
      exact loadImage_fault s bytes
    | true => cases (transact_load_of_started hs bytes).symm.trans h
  | step keys =>
    have hk : (s.setKeys keys).fault.code ≠ .none := hn
    obtain rfl := Host.Outcome.next.inj ((step_faulted hk).symm.trans h)
    rfl
  | timerTick =>
    obtain rfl := Host.Outcome.next.inj h
    rfl

/-- The code after a Draw (60_exceptions.md R143): the height is looked at before any address. -/
theorem execDrw_fault_code {x y n : Nibble} {s t : State} (h : execDrw x y n s = .next t) (h0 : s.fault.code = .none) :
    t.fault.code =
      if n = 0#4 then (if s.params.drawN0Policy = .fault then .unimplemented else .none)
      else if 4096 < s.i.toNat + n.toNat then .memoryBounds
      else .none := by
  rcases execDrw_cases x y n s with ⟨hn, hp, he⟩ | ⟨hn, hp, he⟩ | ⟨hn, hout, he⟩ | ⟨hn, hin, he⟩ <;>
    obtain rfl := Host.Outcome.next.inj (he.symm.trans h)
  · rw [if_pos hn, if_pos hp]
    rfl
  · rw [if_pos hn, if_neg (hp ▸ DrawN0Policy.noConfusion)]
    exact h0
  · rw [if_neg hn, if_pos hout]
    rfl
  · rw [if_neg hn, if_neg (Nat.not_lt.mpr hin)]
    exact h0

/-- Settles O36: each check stands before the next, and the last is the rule's own. -/
theorem faultPriority : Obligations.FaultPriority := by
  intro s h0
  obtain ⟨t, hs, -⟩ := step_answers s
  refine ⟨t, hs, fun hp => ?_, fun w hf => ⟨fun r hd => ?_, fun i hd => ?_⟩⟩
  · obtain rfl := Host.Outcome.next.inj ((step_fetchFault h0 (fetch_outside hp)).symm.trans hs)
    rfl
  · obtain rfl := Host.Outcome.next.inj ((step_decodeFault h0 (fetch_of_fetches hf) hd).symm.trans hs)
    rfl
  · obtain ⟨u, he, rfl⟩ := step_next_of_decoded hf hd hs
    rw [finish_fault]
    cases i with
    | nop | cls | jp | ldVxKk | addVxKk | ldINnn =>
      obtain rfl := Host.Outcome.next.inj he
      exact h0
    | ret =>
      obtain rfl := Host.Outcome.next.inj he
      rfl
    | drw x y n => exact execDrw_fault_code (s := s.markStarted.advance) he h0

end Sys2Proof.Machine

/-! SUPPORT. PROOFS for 45_step_and_interface.md: the instruction a STEP runs (R120), the framebuffer it returns (R125),
the key bits (R127) and the idle end of a run (R132). -/

namespace Sys2Proof.Machine

open Sys2Proof

/-! ## What a completed STEP returns -/

/-- ClearScreen and Draw, by their rows of the table. -/
theorem isDisplay_iff (i : Instr) : isDisplay i = true ↔ i.variant = .cls ∨ i.variant = .drw := by
  cases i <;> simp [isDisplay, Instr.variant]

theorem fbOut_onDisplayInstruction (i : Instr) (before after : Frame) :
    fbOut .onDisplayInstruction i before after = if i.variant = .cls ∨ i.variant = .drw then some after else none := by
  simp only [fbOut, presents, isDisplay_iff]

theorem fbOut_onChange (i : Instr) (before after : Frame) :
    fbOut .onChange i before after = if after = before then none else some after := by
  simp only [fbOut, presents, decide_eq_true_eq, ne_eq, ite_not]

/-- Settles O29: the end of the STEP reads the policy the way R125 says it. -/
theorem stepRunsDecodedInstruction : Obligations.StepRunsDecodedInstruction := by
  intro s w i hf hd
  obtain ⟨u, he, -⟩ := exec_cases i s.markStarted.advance
  have he' : exec i { s with started := true, pc := s.pc + 2#16 } = .next u := he
  rw [step_executes hf.1 (fetch_of_fetches hf) hd he, he']
  dsimp only
  congr 1
  by_cases hc : u.fault.code = .none
  · rw [finish_ok u hc, if_pos hc]
    cases u.params.fbOutPolicy with
    | onDisplayInstruction =>
      rw [fbOut_onDisplayInstruction]
      rfl
    | onChange =>
      rw [fbOut_onChange]
      rfl
  · rw [finish_err u hc, if_neg hc]
    rfl

/-- A STEP that ends without a fault is its instruction, completed, and returns `Ok` of what R125 presents. -/
theorem step_next_of_completed {s t : State} {w : Word} {i : Instr} (hf : s.fetches w) (hd : decodeWord w = .ok i)
    (h : step s = .next t) (hc : t.fault.code = .none) :
    ∃ u, exec i s.markStarted.advance = .next u ∧ t.fb = u.fb ∧
      t.result = .ok (fbOut s.params.fbOutPolicy i s.fb u.fb) := by
  obtain ⟨u, he, rfl⟩ := step_next_of_decoded hf hd h
  obtain ⟨-, -, -, -, -, -, hparams, -⟩ := stepStoresNothing s _ h
  rw [finish_fault] at hc
  rw [finish_params] at hparams
  exact ⟨u, he, finish_fb u i s.fb, by rw [finish_ok u hc, setResult_result, hparams]⟩

/-- Two framebuffers differ exactly when some pixel does. -/
theorem frame_ne_iff {f g : Frame} : f ≠ g ↔ ∃ r c, pixelAt f r c ≠ pixelAt g r c := by
  constructor
  · intro hne
    by_contra hno
    exact hne (frame_ext fun r c => by_contra fun hp => hno ⟨r, c, hp⟩)
  · rintro ⟨r, c, hp⟩ rfl
    exact hp rfl

/-- Settles O39: under `on_change` a frame is kept back only if no pixel changed; under `on_display_instruction` only if
the rule is none of the two that write pixels. -/
theorem framebufferOutput : Obligations.FramebufferOutput := by
  intro s t w i hf hd h hc
  obtain ⟨u, he, hfb, hres⟩ := step_next_of_completed hf hd h hc
  have same (hu : u.fb = s.fb) : SameScreen s t := fun r c => congrArg (pixelAt · r c) (hfb.trans hu)
  rw [hres, hfb]
  refine ⟨fun hp => ?_, fun hp => ?_, ?_⟩
  · rw [hp, fbOut_onDisplayInstruction]
    split_ifs with hi
    · exact iff_of_true rfl hi
    · exact iff_of_false nofun hi
  · rw [hp, fbOut_onChange]
    have hne : (∃ r c, t.pixel r c ≠ s.pixel r c) ↔ u.fb ≠ s.fb := by
      rw [← hfb]
      exact frame_ne_iff.symm
    rw [hne]
    simp
  · intro hnone
    cases hp : s.params.fbOutPolicy with
    | onDisplayInstruction =>
      rw [hp, fbOut_onDisplayInstruction] at hnone
      rcases exec_fb he with hu | rfl | ⟨x, y, n, -, rfl⟩
      · exact same hu
      · cases hnone
      · cases hnone
    | onChange =>
      rw [hp, fbOut_onChange] at hnone
      by_cases hu : u.fb = s.fb
      · exact same hu
      · rw [if_neg hu] at hnone
        cases hnone

/-! ## The key bits -/

theorem drawSprite_setKeys (x y n : Nibble) (s : State) (k : BitVec 16) :
    drawSprite x y n (s.setKeys k) = (drawSprite x y n s).setKeys k := by
  have ho : drawOrigin x y (s.setKeys k) = drawOrigin x y s := by
    unfold drawOrigin
    rw [setKeys_params]
    cases s.params.drawCoordsFirst <;> rfl
  unfold drawSprite
  rw [ho]
  rfl

/-- No rule reads the keys (R127). -/
theorem exec_setKeys {i : Instr} {s t : State} (h : exec i s = .next t) (k : BitVec 16) :
    exec i (s.setKeys k) = .next (t.setKeys k) := by
  cases i with
  | nop | cls | ret | jp | ldVxKk | addVxKk | ldINnn =>
    obtain rfl := Host.Outcome.next.inj h
    rfl
  | drw x y n =>
    rcases execDrw_cases x y n s with ⟨rfl, hp, he⟩ | ⟨rfl, hp, he⟩ | ⟨hn, hout, he⟩ | ⟨hn, hin, he⟩ <;>
      obtain rfl := Host.Outcome.next.inj (he.symm.trans h)
    · exact execDrw_zero_fault (s := s.setKeys k) x y hp
    · exact execDrw_zero_empty (s := s.setKeys k) x y hp
    · exact execDrw_outside (s := s.setKeys k) x y hn hout
    · exact (execDrw_inside (s := s.setKeys k) x y hn hin).trans (congrArg _ (drawSprite_setKeys x y n s k))

theorem finish_setKeys (i : Instr) (before : Frame) (s : State) (k : BitVec 16) :
    State.finish i before (s.setKeys k) = (State.finish i before s).setKeys k := by
  unfold State.finish
  rw [setKeys_fault]
  split <;> rfl

/-- Nothing of the STEP reads the keys, so they are still on their port when it ends. -/
theorem step_setKeys {s t : State} (h : step s = .next t) (k : BitVec 16) :
    step (s.setKeys k) = .next (t.setKeys k) := by
  rcases step_cases s with
      ⟨hn, hs⟩ | ⟨h0, -, hf, hs⟩ | ⟨w, r, h0, -, hf, hd, hs⟩ | ⟨w, i, u, h0, -, hf, hd, he, -, hs⟩ <;>
    obtain rfl := Host.Outcome.next.inj (hs.symm.trans h)
  · exact step_faulted (s := s.setKeys k) hn
  · exact step_fetchFault (s := s.setKeys k) h0 hf
  · exact step_decodeFault (s := s.setKeys k) h0 hf hd
  · rw [← finish_setKeys]
    exact step_executes (s := s.setKeys k) h0 hf hd (exec_setKeys he k)

/-- Settles O40: each of the two STEPs is the STEP of `s` with its keys put on the port. -/
theorem keysHaveNoEffect : Obligations.KeysHaveNoEffect := by
  intro s k k'
  obtain ⟨t, hs, -⟩ := step_answers s
  exact ⟨t.setKeys k, step_setKeys hs k, step_setKeys hs k'⟩

/-! ## The idle end of a run -/

/-- Settles O51: the Jump puts `PC` back over the advance, and the word it goes back to is the same. -/
theorem idleRunStaysIdle : Obligations.IdleRunStaysIdle := by
  rintro s ⟨h0, w, nnn, hf, hd, hpc⟩
  have hs := step_executes h0 hf hd (exec_jp nnn _)
  have hout : fbOut s.params.fbOutPolicy (.jp nnn) s.fb s.fb = none := fbOut_eq_none_of_not_isDisplay rfl _ _
  rw [hpc, finish_ok (s.markStarted.advance.setPc s.pc) h0] at hs
  refine ⟨{ s with started := true, result := .ok none }, hs.trans ?_, rfl, h0, w, nnn, hf, hd, hpc⟩
  rw [← hout]
  rfl

end Sys2Proof.Machine

/-! SUPPORT. PROOFS for the invariant of every reachable state (10_state.md sections 4 and 5, 20_memory.md R52,
60_exceptions.md section 8) and for 70_reset_and_hazards.md section 1. -/

namespace Sys2Proof.Machine

open Sys2Proof

/-! ## RESET -/

/-- Settles O46: RESET reads nothing of the state but its configuration. -/
theorem resetTable : Obligations.ResetTable := by
  refine ⟨fun s => ?_, pixelAt_blankFrame⟩
  exact ⟨State.resetWith s.params, rfl, fun _ => rfl, fun _ => Vector.getElem_replicate .., rfl, rfl, rfl, rfl, rfl,
    rfl, rfl, rfl, rfl⟩

theorem resetWith_inv (p : Params) : (State.resetWith p).Inv where
  memory := resetWith_mem_wf p
  stackForm := rfl
  reserved := fun _ _ => rfl
  index := Nat.zero_le _
  counter := by
    show (0x200#16).toNat ≤ 0x1000
    decide
  delay := rfl
  sound := rfl
  fault := ⟨rfl, rfl, rfl⟩
  stopped := fun h => absurd rfl h

/-- Settles O41: the default configuration is one of all. -/
theorem resetMeetsInvariant : Obligations.ResetMeetsInvariant := ⟨resetWith_inv _, resetWith_inv⟩

/-! ## STEP -/

/-- What a STEP records is what 60_exceptions.md R141 lists. -/
theorem StepRaises.legal {s : State} {code : FaultCode} {word addr : Word} (h : StepRaises s code word addr) :
    FaultStatus.legal { code := code, pc := s.pc, word := word, addr := addr } := by
  have past (a : Word) : 4095 < (BitVec.ofNat 16 (max a.toNat 4096)).toNat := by
    rw [outsideAddr_toNat]
    exact Nat.le_max_right _ _
  cases h with
  | fetch => exact ⟨past s.pc, .inl rfl⟩
  | decode _ hd => exact ⟨⟨_, hd⟩, rfl⟩
  | rule _ hd hc =>
    rcases hc with ⟨rfl, rfl, rfl⟩ | ⟨x, y, rfl, -, rfl, rfl⟩ | ⟨x, y, n, rfl, -, -, rfl, rfl⟩
    · exact ⟨.inl (encode_of_decodeWord hd).symm, rfl⟩
    · exact ⟨.inr ⟨x, y, hd⟩, rfl⟩
    · exact ⟨past s.i, .inr ⟨x, y, n, hd⟩⟩

/-- `I` stays within 12 bits: its one writer is SetIndex (10_state.md R25). -/
theorem exec_index_le {i : Instr} {s t : State} (h : exec i s = .next t) (hs : s.i.toNat ≤ 0xFFF) :
    t.i.toNat ≤ 0xFFF := by
  by_cases hi : t.i = s.i
  · rwa [hi]
  · obtain ⟨nnn, -, ht⟩ := indexWriters i s t h hi
    rw [ht]
    exact Nat.le_of_lt_succ nnn.isLt

/-- `PC` stays at or below 0x1000 (10_state.md R28): it was fetched from below that, or it is a Jump's 12-bit target. -/
theorem step_counter_le {s t : State} {w : Word} {i : Instr} (hf : s.fetches w) (hd : decodeWord w = .ok i)
    (h : step s = .next t) (hc : t.fault.code = .none) : t.pc.toNat ≤ 0x1000 := by
  obtain ⟨-, rule⟩ := programCounterRule
  have hpc := rule s t w i hf hd h hc
  have hadvance : (s.pc + 2#16).toNat ≤ 0x1000 := by
    obtain ⟨-, hin, -⟩ := hf
    rw [BitVec.toNat_add, show (2#16).toNat = 2 from rfl]
    omega
  cases i with
  | jp nnn =>
    have htarget : (nnn.setWidth 16).toNat = nnn.toNat := zextDatum_toNat nnn
    have hlt := nnn.isLt
    rw [hpc, htarget]
    omega
  | nop | cls | ret | ldVxKk | addVxKk | ldINnn | drw => rwa [hpc]

/-- Settles O42: a STEP stores nothing; one that stops writes a legal fault register at the `PC` it stops at, and one
that completes leaves that register clear. -/
theorem stepKeepsInvariant : Obligations.StepKeepsInvariant := by
  intro s t hinv h
  obtain ⟨hread, hmem, -, hstack, hdt, hst, -⟩ := stepStoresNothing s t h
  have build (index : t.i.toNat ≤ 0xFFF) (counter : t.pc.toNat ≤ 0x1000) (fault : t.fault.legal)
      (stopped : t.fault.code ≠ .none → t.fault.pc = t.pc ∧ t.started = true) : t.Inv :=
    { memory := hmem ▸ hinv.memory, stackForm := hstack ▸ hinv.stackForm,
      reserved := fun a ha => (hread a).trans (hinv.reserved a ha), index := index, counter := counter,
      delay := hdt.trans hinv.delay, sound := hst.trans hinv.sound, fault := fault, stopped := stopped }
  cases stepEnds_of_step h with
  | sticks => exact build hinv.index hinv.counter hinv.fault hinv.stopped
  | stops _ hr => exact build hinv.index hinv.counter hr.legal fun _ => ⟨rfl, rfl⟩
  | @completes w i u hf hd he hu =>
    have hfault : (State.finish i s.fb u).fault = s.fault := (finish_fault u i s.fb).trans hu.fault
    have hclear : (State.finish i s.fb u).fault.code = .none := hfault ▸ hf.1
    exact build ((finish_i u i s.fb).symm ▸ exec_index_le he hinv.index) (step_counter_le hf hd h hclear)
      (hfault.symm ▸ hinv.fault) fun hne => absurd hclear hne

/-! ## The other transactions -/

theorem setKeys_inv {s : State} (h : s.Inv) (k : BitVec 16) : (s.setKeys k).Inv :=
  ⟨h.memory, h.stackForm, h.reserved, h.index, h.counter, h.delay, h.sound, h.fault, h.stopped⟩

/-- LOAD writes at 0x200 and above, and keeps the form. -/
theorem loadImage_inv {s : State} (h : s.Inv) (bytes : List Byte) : (s.loadImage bytes).Inv :=
  { h with
    memory := writeBytes_wf h.memory _ _
    reserved := fun a ha => by
      rw [readByte_loadImage h.memory, if_neg (by omega)]
      exact h.reserved a ha }

/-- A timer at 0 stays 0 (60_exceptions.md R151). -/
theorem timerTick_inv {s : State} (h : s.Inv) : s.timerTick.Inv :=
  { h with
    delay := congrArg tickDown h.delay
    sound := congrArg tickDown h.sound }

/-- Settles O43: each transaction that answers a next state has its own lemma. -/
theorem transactionsKeepInvariant : Obligations.TransactionsKeepInvariant := by
  intro tr s t hinv h
  cases tr with
  | reset =>
    obtain rfl := Host.Outcome.next.inj h
    exact resetWith_inv s.params
  | load bytes =>
    cases hs : s.started with
    | false =>
      obtain rfl := Host.Outcome.next.inj ((transact_load_of_not_started hs bytes).symm.trans h)
      exact loadImage_inv hinv bytes
    | true => cases (transact_load_of_started hs bytes).symm.trans h
  | step keys => exact stepKeepsInvariant _ t (setKeys_inv hinv keys) h
  | timerTick =>
    obtain rfl := Host.Outcome.next.inj h
    exact timerTick_inv hinv

/-! ## The timers -/

/-- Settles O49: the subtraction on numbers stops at 0 by itself. -/
theorem timerTickSaturates : Obligations.TimerTickSaturates := fun s =>
  ⟨s.timerTick, rfl, tickDown_toNat s.dt, tickDown_toNat s.st, rfl⟩

theorem buzzer_iff (s : State) : s.buzzer = true ↔ s.st.toNat ≠ 0 := by
  rw [State.buzzer, decide_eq_true_eq, ne_eq, ← BitVec.toNat_inj]
  rfl

/-- In a state of the invariant `ST` is 0 (45_step_and_interface.md R130). -/
theorem State.Inv.buzzer_eq_false {s : State} (h : s.Inv) : s.buzzer = false := by
  rw [State.buzzer, h.sound]
  rfl

/-- Settles O50: the state after the transaction meets the invariant too. -/
theorem buzzerStaysSilent : Obligations.BuzzerStaysSilent :=
  ⟨buzzer_iff, fun tr s t hinv h =>
    ⟨hinv.buzzer_eq_false, (transactionsKeepInvariant tr s t hinv h).buzzer_eq_false⟩⟩

end Sys2Proof.Machine
